-- ==== Sys2Proof/Word.lean ====
section
/-! DEFINITION. The words of the machine: 32-bit lanes, 5-bit register indices, 16-bit immediates (00_scope.md R7, R9, R10). -/

namespace Sys2Proof

/-- A 32-bit value: a register, a data word, an instruction word, a PC value or a datapath value (R10). -/
abbrev Word := BitVec 32

/-- A 5-bit register index (R7). -/
abbrev RegIdx := BitVec 5

/-- The 16-bit immediate field (R14, R81). -/
abbrev Imm := BitVec 16

end Sys2Proof
end

