-- ==== Sys2Proof/Syntax.lean ====
section
/-! DEFINITION. The nine instructions of opcode_table.json (00_scope.md R2), operands in the order of the assembly syntax
(30_encoding.md R91). The bits a word's instruction ignores (R88) are no operands. -/

namespace Sys2Proof

/-- One constructor per row of the opcode table. -/
inductive Instr where
  /-- `ADD rd, rs, rt` (R150). -/
  | add (rd rs rt : RegIdx)
  /-- `AND rd, rs, rt` (R151). -/
  | and (rd rs rt : RegIdx)
  /-- `SLT rd, rs, rt` (R152). -/
  | slt (rd rs rt : RegIdx)
  /-- `ADDI rt, rs, #imm` (R170). -/
  | addi (rt rs : RegIdx) (imm : Imm)
  /-- `LUI rt, #imm` (R171). -/
  | lui (rt : RegIdx) (imm : Imm)
  /-- `ORI rt, rs, #imm` (R172). -/
  | ori (rt rs : RegIdx) (imm : Imm)
  /-- `LW rt, imm(rs)` (R191). -/
  | lw (rt : RegIdx) (imm : Imm) (rs : RegIdx)
  /-- `SW rt, imm(rs)` (R192). -/
  | sw (rt : RegIdx) (imm : Imm) (rs : RegIdx)
  /-- `BEQ rs, rt, #imm` (R210). -/
  | beq (rs rt : RegIdx) (imm : Imm)
  deriving DecidableEq, Repr

end Sys2Proof
end

