-- ==== Sys2Proof/WellFormed.lean ====
section
/-! DEFINITION. Well-formedness of instructions and of a program to load. -/

namespace Sys2Proof

/-- Every instruction term is well formed: its operands are the 5-bit and 16-bit fields themselves, and every value of
every field is legal for every instruction (R53, R81: "Total function", R88). -/
def Instr.wellFormed : Instr → Bool
  | .add _ _ _ | .and _ _ _ | .slt _ _ _ => true
  | .addi _ _ _ | .lui _ _ | .ori _ _ _ => true
  | .lw _ _ _ | .sw _ _ _ => true
  | .beq _ _ _ => true

/-- A program the host may load: word k goes to instruction index k (R30, R134), and an index has 32 bits (R26), so there
are at most 2^32 words. DESIGN CHOICE (log entry 25; safe). -/
def wellFormedProgram (program : List Word) : Bool :=
  decide (program.length ≤ 2 ^ 32)

end Sys2Proof
end

