-- ==== Sys2Proof/Decode.lean ====
section
/-! DEFINITION. Field decoder, classification, decoder and encoder (30_encoding.md). -/

namespace Sys2Proof

/-! ### Field decoder (R81, R113) -/

/-- `instr[31:26]`. -/
def opcodeField (w : Word) : BitVec 6 := w.extractLsb' 26 6

/-- `instr[25:21]`. -/
def rsField (w : Word) : RegIdx := w.extractLsb' 21 5

/-- `instr[20:16]`. -/
def rtField (w : Word) : RegIdx := w.extractLsb' 16 5

/-- `instr[15:11]`. -/
def rdField (w : Word) : RegIdx := w.extractLsb' 11 5

/-- `instr[5:0]`. -/
def functField (w : Word) : BitVec 6 := w.extractLsb' 0 6

/-- `instr[15:0]`. -/
def immField (w : Word) : Imm := w.extractLsb' 0 16

/-! ### Classification (R85) -/

/-- The instruction tag: the nine instructions and UNKNOWN (R14, R85). -/
inductive Tag where
  | add | and | slt | addi | lui | ori | lw | sw | beq | unknown
  deriving DecidableEq, Repr

/-- `classify` of R85: keyed by opcode and, for opcode 0 alone, by funct. UNVERIFIED (log entry 24; unsafe if a literal of
the source is wrong). -/
def classify (opcode funct : BitVec 6) : Tag :=
  if opcode = 0x00 then
    if funct = 0x20 then .add
    else if funct = 0x24 then .and
    else if funct = 0x2a then .slt
    else .unknown
  else if opcode = 0x08 then .addi
  else if opcode = 0x0f then .lui
  else if opcode = 0x0d then .ori
  else if opcode = 0x23 then .lw
  else if opcode = 0x2b then .sw
  else if opcode = 0x04 then .beq
  else .unknown

/-- The tag of a whole word. -/
def classifyWord (w : Word) : Tag := classify (opcodeField w) (functField w)

/-! ### Decoder -/

/-- Why a word is no instruction of the table. -/
inductive DecodeReject where
  /-- The pair is not in the control table: the word is UNKNOWN (R90), and `step` executes it as R230 or R231 says. -/
  | unlisted (opcode funct : BitVec 6)
  deriving DecidableEq, Repr

/-- The instruction a word stands for, or its rejection by name; total on every word (R81). The bits R88 names are
ignored. -/
def decode (w : Word) : Except DecodeReject Instr :=
  match classifyWord w with
  | .add => .ok (.add (rdField w) (rsField w) (rtField w))
  | .and => .ok (.and (rdField w) (rsField w) (rtField w))
  | .slt => .ok (.slt (rdField w) (rsField w) (rtField w))
  | .addi => .ok (.addi (rtField w) (rsField w) (immField w))
  | .lui => .ok (.lui (rtField w) (immField w))
  | .ori => .ok (.ori (rtField w) (rsField w) (immField w))
  | .lw => .ok (.lw (rtField w) (immField w) (rsField w))
  | .sw => .ok (.sw (rtField w) (immField w) (rsField w))
  | .beq => .ok (.beq (rsField w) (rtField w) (immField w))
  | .unknown => .error (.unlisted (opcodeField w) (functField w))

/-! ### Encoder (R82, R83, R92) -/

/-- `encR` of R92, with opcode 0x00; bits 10 to 6 are written 0 (D17). -/
def encR (rd rs rt : RegIdx) (funct : BitVec 6) : Word :=
  (rs.setWidth 32 <<< 21) ||| (rt.setWidth 32 <<< 16) ||| (rd.setWidth 32 <<< 11) ||| funct.setWidth 32

/-- `encI` of R92. -/
def encI (op : BitVec 6) (rt rs : RegIdx) (imm : Imm) : Word :=
  (op.setWidth 32 <<< 26) ||| (rs.setWidth 32 <<< 21) ||| (rt.setWidth 32 <<< 16) ||| imm.setWidth 32

/-- The word an assembler writes for an instruction. DESIGN CHOICE (log entry 18; safe): the ignored rs field of LUI is
written 0. -/
def encode : Instr → Word
  | .add rd rs rt => encR rd rs rt 0x20
  | .and rd rs rt => encR rd rs rt 0x24
  | .slt rd rs rt => encR rd rs rt 0x2a
  | .addi rt rs imm => encI 0x08 rt rs imm
  | .lui rt imm => encI 0x0f rt 0 imm
  | .ori rt rs imm => encI 0x0d rt rs imm
  | .lw rt imm rs => encI 0x23 rt rs imm
  | .sw rt imm rs => encI 0x2b rt rs imm
  | .beq rs rt imm => encI 0x04 rt rs imm

/-- The tag of an instruction. -/
def Instr.tag : Instr → Tag
  | .add _ _ _ => .add
  | .and _ _ _ => .and
  | .slt _ _ _ => .slt
  | .addi _ _ _ => .addi
  | .lui _ _ => .lui
  | .ori _ _ _ => .ori
  | .lw _ _ _ => .lw
  | .sw _ _ _ => .sw
  | .beq _ _ _ => .beq

/-! ### The opcode table, as data -/

/-- A row of opcode_table.json: a word is of the row when its bits under `mask` are `pattern`. -/
structure OpcodeRow where
  tag : Tag
  mask : Word
  pattern : Word
  deriving DecidableEq, Repr

/-- The match and mask columns of opcode_table.json, as the rules R150 to R210 repeat them. -/
def opcodeTable : List OpcodeRow :=
  [ { tag := .add, mask := 0xFC00003F, pattern := 0x00000020 },
    { tag := .and, mask := 0xFC00003F, pattern := 0x00000024 },
    { tag := .slt, mask := 0xFC00003F, pattern := 0x0000002A },
    { tag := .addi, mask := 0xFC000000, pattern := 0x20000000 },
    { tag := .lui, mask := 0xFC000000, pattern := 0x3C000000 },
    { tag := .ori, mask := 0xFC000000, pattern := 0x34000000 },
    { tag := .lw, mask := 0xFC000000, pattern := 0x8C000000 },
    { tag := .sw, mask := 0xFC000000, pattern := 0xAC000000 },
    { tag := .beq, mask := 0xFC000000, pattern := 0x10000000 } ]

/-- A word belongs to a row. -/
def OpcodeRow.covers (r : OpcodeRow) (w : Word) : Bool := w &&& r.mask == r.pattern

/-- The bits of a word that its tag reads: all but the don't-care bits of R88. -/
def usedBits : Tag → Word
  | .add | .and | .slt => 0xFFFFF83F
  | .lui => 0xFC1FFFFF
  | .addi | .ori | .lw | .sw | .beq => 0xFFFFFFFF
  | .unknown => 0xFC00003F

/-- The host's question to the decoder: the instruction in the word whose low `nbits` bits are `w`, the rest being 0.
Every instruction is one 32-bit word (R80). -/
def decodeTableWord (nbits w : Nat) : Option Instr :=
  match decode (BitVec.ofNat 32 (w % 2 ^ nbits)) with
  | .ok i => some i
  | .error _ => none

end Sys2Proof
end

