-- ==== Sys2Proof/Machine/Flags.lean ====
section
/-! DEFINITION. The machine has no flags (10_state.md R31): a comparison's outcome is SLT's word or BEQ's decision inside
the cycle, and those two are here. -/

namespace Sys2Proof.Machine

/-- SLT's result (R123): 1 if A < B as signed 32-bit integers, else 0. -/
def sltWord (a b : Word) : Word := if a.toInt < b.toInt then 1 else 0

/-- EQTEST's decision (R124): all bits of A and B are equal. -/
def equalTaken (a b : Word) : Bool := a == b

/-- The branch offset (R124): `simm` if taken, else 0; unshifted (R130, C4). -/
def branchOffset (taken : Bool) (simm : Word) : Word := if taken then simm else 0

end Sys2Proof.Machine
end

