-- ==== Sys2Proof/Config.lean ====
section
/-! DEFINITION. The parameters the spec leaves open (00_scope.md R8) and the one value it leaves free (40_datapath.md R125). -/

namespace Sys2Proof

/-- `UNKNOWN_POLICY` (R230, R231, D1): what an unlisted encoding does. -/
inductive UnknownPolicy where
  /-- No operation, the hardware the spec describes (R230). -/
  | nop
  /-- A fault, for claims that must also cover the reference code (R231). -/
  | fault
  deriving DecidableEq, Repr

/-- `IMEM_UNLOADED` (R30, R112, D6): what a fetch returns at an index the loader did not fill. -/
inductive ImemUnloaded where
  /-- The model has no step there. -/
  | stuck
  /-- Every unfilled index holds `w`. -/
  | word (w : Word)
  deriving DecidableEq, Repr

/-- `CLK_EDGE` (R110, D7): the active clock edge, which no rule reads. -/
inductive ClkEdge where
  | rising
  | falling
  deriving DecidableEq, Repr

/-- The parameters that stay fixed through a run (R8). `RF_INIT` and `DMEM_INIT` are arguments of `State.launch`, and
`CYCLES` is the argument of the run. -/
structure Params where
  /-- `UNKNOWN_POLICY`. -/
  unknownPolicy : UnknownPolicy
  /-- `IMEM_UNLOADED`. -/
  imemUnloaded : ImemUnloaded
  /-- `DMEM_CAPACITY` (R57, D12): with `some c`, an LW or SW at an address of `c` or more is stuck. -/
  dmemCapacity : Option Nat
  /-- `CLK_EDGE`. -/
  clkEdge : ClkEdge
  deriving DecidableEq, Repr

/-- The spec's own configuration: UNKNOWN is a no-operation (D1), an unloaded fetch is stuck (D6, the recommended
default), there is no capacity bound (D12). DESIGN CHOICE (log entries 5 and 8; safe): `stuck` and the rising edge.
DESIGN CHOICE of the spec itself (log entries 6 and 7; unsafe for the reference code and for a smaller memory): `nop` and
no bound. -/
def Params.spec : Params where
  unknownPolicy := .nop
  imemUnloaded := .stuck
  dmemCapacity := none
  clkEdge := .rising

/-- DEDUCED (log entry 10; safe for state, unsafe for a claim about the trace). The free value of R125: the ALU result
under EQTEST, "any 32-bit value". It has no body, so nothing can be proved of it beyond its being one value for equal
inputs A, B and simm of the ALU (R122; R34: every signal is a pure function of the current cycle). -/
opaque Config.eqtestResult (a b simm : Word) : Word

end Sys2Proof
end

