-- ==== Sys2Proof/Machine/State.lean ====
section
/-! DEFINITION. The state of the core (10_state.md), the reasons a step can stop (60_exceptions.md R254), and reset. -/

namespace Sys2Proof.Machine

/-- Words held at addresses: the smallest addressable unit of both spaces is a 32-bit word (R50, R51), so a cell holds a
word and there is no byte view (R52). DEDUCED (log entry 1; safe). -/
abbrev Cells := List (Nat × Word)

/-- What a data address that is not listed reads as. DESIGN CHOICE (log entry 3; unsafe for a claim about
`State.reset`): the spec gives no contents (`DMEM_INIT`, R29). Each `DMEM_INIT` is some listing of cells, and
`State.launch` takes it as an argument. -/
def unlistedWord : Word := 0

/-- The state: R20's tuple (pc, x, dmem), and beside it what R8 and R20 make parameters of the step, which no
instruction writes (log entry 4). -/
structure State where
  /-- The program counter, an instruction index (R26). -/
  pc : Word
  /-- The 32 lanes of the register file (R22); lane 0 is read through `State.readReg`, which gives 0. -/
  regs : Vector Word 32
  /-- The data memory (R29), in the canonical form `Memory.wf`. -/
  dmem : Cells
  /-- The instruction store (R30): the loaded words by index, in the canonical form `InstrStore.wf`. -/
  imem : Cells
  /-- The parameters of R8. -/
  params : Params
  deriving DecidableEq, Repr

/-- The stops a model may have that the hardware does not (R254). -/
inductive Fault where
  /-- Stuck: raised by `step` when it fetches at an index the loader did not fill, with `IMEM_UNLOADED = stuck` (R30,
  R112, D6). Safe: the hardware goes on. -/
  | unloadedFetch (index : Word)
  /-- Stuck: raised by LW and SW at an address outside `DMEM_CAPACITY` when a capacity is set (R57, D12). Safe: it never
  gives the access a value. -/
  | beyondCapacity (addr : Word)
  /-- Raised by `step` at an UNKNOWN word with `UNKNOWN_POLICY = fault`, recording the pc (R231, D1). Safe for the block
  and for the reference code, as far as states go (the trace there: log entry 27). -/
  | unknownWord (pc : Word)
  deriving DecidableEq, Repr

/-- Why `exec` gives an instruction no meaning. -/
inductive Refusal where
  /-- Raised by an arm of `exec` that has no meaning yet; no arm is left so. Safe. -/
  | notModelled (mnemonic : String)
  deriving DecidableEq, Repr

/-- The launch state with nothing loaded (R270). DEDUCED (log entry 9; safe): launch is reset and pc is 0 (R28), register 0 is
0 (R25), the parameters are the spec's
own configuration. DESIGN CHOICE (log entries 2 and 3; unsafe): registers 1 to 31 and the data memory are 0, where the spec gives
`RF_INIT` and `DMEM_INIT`. -/
def State.reset : State where
  pc := 0
  regs := Vector.replicate 32 0
  dmem := []
  imem := []
  params := Params.spec

end Sys2Proof.Machine
end

