-- ==== Sys2Proof/Machine/Ops.lean ====
section
/-! DEFINITION. The named operations over cells, registers, memories and the PC. There is no operation that takes an
exception and none that returns from one: the core raises nothing and has no trap entry or return (60_exceptions.md R240,
R243, R245, R246). -/

namespace Sys2Proof.Machine

/-! ### Cells -/

/-- The word listed at `a`. -/
def Cells.lookup : Cells → Nat → Option Word
  | [], _ => none
  | (k, v) :: m, a => if k = a then some v else Cells.lookup m a

/-- List `v` at `a`, in its place by address. -/
def Cells.insert : Cells → Nat → Word → Cells
  | [], a, v => [(a, v)]
  | (k, x) :: m, a, v =>
    if a < k then (a, v) :: (k, x) :: m
    else if a = k then (a, v) :: m
    else (k, x) :: Cells.insert m a v

/-- Remove what is listed at `a`. -/
def Cells.erase : Cells → Nat → Cells
  | [], _ => []
  | (k, x) :: m, a => if k = a then Cells.erase m a else (k, x) :: Cells.erase m a

/-- Addresses strictly rise and have 32 bits (R50). -/
abbrev Cells.rising (m : Cells) : Prop :=
  m.Pairwise (fun x y => x.1 < y.1) ∧ ∀ c ∈ m, c.1 < 2 ^ 32

/-- The one canonical form of the data memory: addresses strictly rise, and no cell holds what an unlisted address reads
as. -/
abbrev Memory.wf (m : Cells) : Prop := Cells.rising m ∧ ∀ c ∈ m, c.2 ≠ unlistedWord

/-- The one canonical form of the instruction store, where an unlisted index is one that was not loaded. -/
abbrev InstrStore.wf (m : Cells) : Prop := Cells.rising m

/-! ### Data memory (20_memory.md) -/

/-- `MemRead(a, 1)` over the cells. -/
def Memory.read (m : Cells) (a : Word) : Word := (Cells.lookup m a.toNat).getD unlistedWord

/-- `MemWrite(a, 1, v)` over the cells, keeping the canonical form. -/
def Memory.write (m : Cells) (a v : Word) : Cells :=
  if v = unlistedWord then Cells.erase m a.toNat else Cells.insert m a.toNat v

/-- `MemRead(a, 1)` (R55). DESIGN CHOICE of the spec itself (D18; log entry 14; unsafe if some address had one): no side
effect at any address. -/
def State.readMem (s : State) (a : Word) : Word := Memory.read s.dmem a

/-- `MemWrite(a, 1, v)` (R56). -/
def State.writeMem (s : State) (a v : Word) : State := { s with dmem := Memory.write s.dmem a v }

/-- The address is inside `DMEM_CAPACITY` (R57, log entry 7); with none set, every address is (R53). DEDUCED (log entry 17;
safe): there is no alignment condition. -/
def State.inCapacity (s : State) (a : Word) : Bool :=
  match s.params.dmemCapacity with
  | none => true
  | some c => decide (a.toNat < c)

/-- An access of LW or SW at `a`: `act` where the address is inside the capacity, else stuck (R57, R254). -/
def State.access (s : State) (a : Word) (act : State) : Host.Outcome State Fault Refusal :=
  if s.inCapacity a then .next act else .fault (.beyondCapacity a)

/-! ### Register file (R22 to R24, R117, R118) -/

/-- `x[r]`: an index of 0 reads 0, whatever lane 0 holds (R22, R117). DESIGN CHOICE (log entry 16; safe): the lane is kept. -/
def State.readReg (s : State) (r : RegIdx) : Word := if r = 0 then 0 else s.regs[r.toNat]'r.isLt

/-- `x[r] <- v`: a write to index 0 is discarded (R118). -/
def State.writeReg (s : State) (r : RegIdx) (v : Word) : State :=
  { s with regs := if r = 0 then s.regs else s.regs.set r.toNat v r.isLt }

/-! ### Instruction store and PC unit -/

/-- `IMemRead(pc)` (R112), with what `IMEM_UNLOADED` says at an index the loader did not fill. -/
def State.fetch (s : State) : Option Word :=
  match Cells.lookup s.imem s.pc.toNat with
  | some w => some w
  | none =>
    match s.params.imemUnloaded with
    | .stuck => none
    | .word w => some w

/-- The PC unit (R130): `pc <- pc + 1 + br_offset`, modulo 2^32. -/
def State.advance (s : State) (brOffset : Word) : State := { s with pc := s.pc + 1 + brOffset }

end Sys2Proof.Machine
end

