-- ==== Sys2Proof/Machine/Operands.lean ====
section
/-! DEFINITION. Operand forms: the extenders, LUI's placement, the one addressing mode, and the operand selector. -/

namespace Sys2Proof.Machine

/-- `sext_32` (R11, R121): the sign bit fills bits 31 to 16. -/
def sext32 (imm : Imm) : Word := imm.signExtend 32

/-- `zext_32` (R11, R121): zeros fill bits 31 to 16. -/
def zext32 (imm : Imm) : Word := imm.setWidth 32

/-- The effective address of LW and SW (R190): a word address, the offset unscaled, modulo 2^32. -/
def State.effectiveAddress (s : State) (rs : RegIdx) (imm : Imm) : Word := s.readReg rs + sext32 imm

/-- The values of ALUSrc that are used (R87; the unused code 3 has no constructor, U6). -/
inductive AluSrc where
  | reg | signExt | zeroExt
  deriving DecidableEq, Repr

/-- The codes of R87. DESIGN CHOICE (D2; log entry 13; unsafe for a claim about trace codes). -/
def AluSrc.code : AluSrc → BitVec 2
  | .reg => 0
  | .signExt => 1
  | .zeroExt => 2

/-- The operand selector's `alu_b` (R120). -/
def selectOperandB (src : AluSrc) (rtVal simm zimm : Word) : Word :=
  match src with
  | .reg => rtVal
  | .signExt => simm
  | .zeroExt => zimm

end Sys2Proof.Machine
end

