-- ==== Sys2Proof/Machine/Branch.lean ====
section
/-! DEFINITION. BEQ (44_branch.md): no delay slot, no link register, the offset unscaled (R211). -/

namespace Sys2Proof.Machine

/-- BEQ (R210). -/
def execBeq (rs rt : RegIdx) (imm : Imm) (s : State) : Host.Outcome State Fault Refusal :=
  .next (s.advance (branchOffset (equalTaken (s.readReg rs) (s.readReg rt)) (sext32 imm)))

end Sys2Proof.Machine
end

