-- ==== Sys2Proof/Machine/ImmAlu.lean ====
section
/-! DEFINITION. ADDI, LUI, ORI (42_immediate_alu.md). -/

namespace Sys2Proof.Machine

/-- ADDI (R170): the sign-extended addend, wrapping (R241). -/
def execAddi (rt rs : RegIdx) (imm : Imm) (s : State) : Host.Outcome State Fault Refusal :=
  .next ((s.writeReg rt (s.readReg rs + sext32 imm)).advance 0)

/-- LUI (R171): the immediate in bits 31 to 16, zeros below. -/
def execLui (rt : RegIdx) (imm : Imm) (s : State) : Host.Outcome State Fault Refusal :=
  .next ((s.writeReg rt (sext32 imm <<< 16)).advance 0)

/-- ORI (R172): the zero-extended mask. -/
def execOri (rt rs : RegIdx) (imm : Imm) (s : State) : Host.Outcome State Fault Refusal :=
  .next ((s.writeReg rt (s.readReg rs ||| zext32 imm)).advance 0)

end Sys2Proof.Machine
end

