-- ==== Sys2Proof/Machine/LoadStore.lean ====
section
/-! DEFINITION. LW and SW (43_load_store.md). Every address is valid (R53) unless the model bounds the capacity (R57). -/

namespace Sys2Proof.Machine

/-- LW (R191): the address uses the old base, also when rt = rs. -/
def execLw (rt : RegIdx) (imm : Imm) (rs : RegIdx) (s : State) : Host.Outcome State Fault Refusal :=
  s.access (s.effectiveAddress rs imm)
    ((s.writeReg rt (s.readMem (s.effectiveAddress rs imm))).advance 0)

/-- SW (R192): it writes no register. -/
def execSw (rt : RegIdx) (imm : Imm) (rs : RegIdx) (s : State) : Host.Outcome State Fault Refusal :=
  s.access (s.effectiveAddress rs imm)
    ((s.writeMem (s.effectiveAddress rs imm) (s.readReg rt)).advance 0)

end Sys2Proof.Machine
end

