-- ==== Sys2Proof/Machine/RType.lean ====
section
/-! DEFINITION. ADD, AND, SLT (41_rtype_alu.md). Every read sees the state before the write (R12). -/

namespace Sys2Proof.Machine

/-- ADD (R150): 32-bit wraparound, no overflow trap (R241). -/
def execAdd (rd rs rt : RegIdx) (s : State) : Host.Outcome State Fault Refusal :=
  .next ((s.writeReg rd (s.readReg rs + s.readReg rt)).advance 0)

/-- AND (R151). -/
def execAnd (rd rs rt : RegIdx) (s : State) : Host.Outcome State Fault Refusal :=
  .next ((s.writeReg rd (s.readReg rs &&& s.readReg rt)).advance 0)

/-- SLT (R152): a signed comparison, delivered as a whole word 0 or 1. -/
def execSlt (rd rs rt : RegIdx) (s : State) : Host.Outcome State Fault Refusal :=
  .next ((s.writeReg rd (sltWord (s.readReg rs) (s.readReg rt))).advance 0)

end Sys2Proof.Machine
end

