-- ==== Sys2Proof/Machine/Dispatch.lean ====
section
/-! DEFINITION. One arm per instruction, each a direct call of its meaning. -/

namespace Sys2Proof.Machine

def exec (i : Instr) (s : State) : Host.Outcome State Fault Refusal :=
  match i with
  | .add rd rs rt => Sys2Proof.Machine.execAdd rd rs rt s
  | .and rd rs rt => Sys2Proof.Machine.execAnd rd rs rt s
  | .slt rd rs rt => Sys2Proof.Machine.execSlt rd rs rt s
  | .addi rt rs imm => Sys2Proof.Machine.execAddi rt rs imm s
  | .lui rt imm => Sys2Proof.Machine.execLui rt imm s
  | .ori rt rs imm => Sys2Proof.Machine.execOri rt rs imm s
  | .lw rt imm rs => Sys2Proof.Machine.execLw rt imm rs s
  | .sw rt imm rs => Sys2Proof.Machine.execSw rt imm rs s
  | .beq rs rt imm => Sys2Proof.Machine.execBeq rs rt imm s

end Sys2Proof.Machine
end

