-- ==== Sys2Proof/Machine/Unlisted.lean ====
section
/-! DEFINITION. The unlisted encodings (45_unlisted.md). UNKNOWN is no row of the opcode table and no constructor of
`Instr`: `step` comes here when `decode` rejects the word. DESIGN CHOICE (log entry 6; unsafe for the reference code). -/

namespace Sys2Proof.Machine

/-- UNKNOWN: only the PC advances under `nop` (R230); a fault at the pc under `fault` (R231). -/
def execUnknown (s : State) : Host.Outcome State Fault Refusal :=
  match s.params.unknownPolicy with
  | .nop => .next (s.advance 0)
  | .fault => .fault (.unknownWord s.pc)

end Sys2Proof.Machine
end

