-- ==== Sys2Proof/Machine/Step.lean ====
section
/-! DEFINITION. One cycle (40_datapath.md R111, R135): fetch, decode, execute, retire. -/

namespace Sys2Proof.Machine

/-- `step()`: the cycle of the instruction at the pc. -/
def step (s : State) : Host.Outcome State Fault Refusal :=
  match s.fetch with
  | none => .fault (.unloadedFetch s.pc)
  | some w =>
    match decode w with
    | .ok i => exec i s
    | .error _ => execUnknown s

/-- The state with the word whose low `nbits` bits are `w` (the rest 0) loaded at the index `step` fetches next: it
stands for the host's load of a program (R134; log entry 4). -/
def State.withFetchWord (s : State) (nbits w : Nat) : State :=
  { s with imem := Cells.insert s.imem s.pc.toNat (BitVec.ofNat 32 (w % 2 ^ nbits)) }

end Sys2Proof.Machine
end

