-- ==== Sys2Proof/Machine/Boot.lean ====
section
/-! DEFINITION. The host's side before the first step: the loader and the launch state (70_reset_and_hazards.md R270, R271). -/

namespace Sys2Proof.Machine

/-- Words at consecutive indices from `k` on. -/
def cellsFrom : Nat → List Word → Cells
  | _, [] => []
  | k, w :: ws => (k, w) :: cellsFrom (k + 1) ws

/-- The instruction store after the host loads a program: word k at index k (R30, R134). -/
def loadProgram (program : List Word) : Cells := cellsFrom 0 program

/-- The launch state (R270) for a program, `RF_INIT` (register r is entry r - 1), `DMEM_INIT` (as cells; every function
from address to word is some canonical listing) and the parameters of R8. -/
def State.launch (program : List Word) (rfInit : Vector Word 31) (dmemInit : Cells) (params : Params) : State where
  pc := 0
  regs := Vector.ofFn fun (r : Fin 32) => if h : r.val = 0 then 0 else rfInit[r.val - 1]
  dmem := dmemInit
  imem := loadProgram program
  params := params

end Sys2Proof.Machine
end

