-- ==== Sys2Proof/Machine/Datapath.lean ====
section
/-! DEFINITION. The datapath as components (40_datapath.md): control unit, ALU, write-back arbiter, and the cycle of R111.
`step` runs the per-instruction rules; that it is this cycle is stated as an obligation. DESIGN CHOICE (log entry 19;
safe). Nothing here is carried from one cycle to the next (R21). -/

namespace Sys2Proof.Machine

/-! ### Control unit (R86, R87, R114) -/

/-- The values of ALUOp that are used (R87; codes 6 and 7 have no constructor, U6). -/
inductive AluOp where
  | add | and | or | slt | luiShift | eqTest
  deriving DecidableEq, Repr

/-- The codes of R87. DESIGN CHOICE (D2; log entry 13; unsafe for a claim about trace codes). -/
def AluOp.code : AluOp → BitVec 3
  | .add => 0
  | .and => 1
  | .or => 2
  | .slt => 3
  | .luiShift => 4
  | .eqTest => 5

/-- The control bundle: the seven signals of R115. -/
structure Control where
  regDst : Bool
  branch : Bool
  regWrite : Bool
  aluSrc : AluSrc
  memWrite : Bool
  memToReg : Bool
  aluOp : AluOp
  deriving DecidableEq, Repr

/-- The control ROM (R86), columns in the table's order. -/
def controlRom : Tag → Control
  | .add => ⟨true, false, true, .reg, false, false, .add⟩
  | .and => ⟨true, false, true, .reg, false, false, .and⟩
  | .slt => ⟨true, false, true, .reg, false, false, .slt⟩
  | .addi => ⟨false, false, true, .signExt, false, false, .add⟩
  | .lui => ⟨false, false, true, .signExt, false, false, .luiShift⟩
  | .ori => ⟨false, false, true, .zeroExt, false, false, .or⟩
  | .lw => ⟨false, false, true, .signExt, false, true, .add⟩
  | .sw => ⟨false, false, false, .signExt, true, false, .add⟩
  | .beq => ⟨false, true, false, .reg, false, false, .eqTest⟩
  | .unknown => ⟨false, false, false, .reg, false, false, .add⟩

/-! ### ALU (R122 to R125) -/

/-- The ALU's outputs (R122). -/
structure AluOut where
  result : Word
  taken : Bool
  brOffset : Word
  deriving DecidableEq, Repr

/-- `alu_result` per ALUOp (R123); under EQTEST it is the free value `draw` (R125). -/
def aluResult (draw : Word) (op : AluOp) (a b : Word) : Word :=
  match op with
  | .add => a + b
  | .and => a &&& b
  | .or => a ||| b
  | .slt => sltWord a b
  | .luiShift => b <<< 16
  | .eqTest => draw

/-- The ALU (R122): it also takes `simm` (C2). -/
def alu (draw : Word) (op : AluOp) (a b simm : Word) : AluOut :=
  let taken := decide (op = .eqTest) && equalTaken a b
  { result := aluResult draw op a b, taken := taken, brOffset := branchOffset taken simm }

/-! ### The cycle (R111) -/

/-- The signals of one cycle, R111's names. -/
structure Signals where
  opcode : BitVec 6
  control : Control
  rsVal : Word
  rtVal : Word
  simm : Word
  zimm : Word
  aluB : Word
  aluOut : AluOut
  memRdata : Word
  wd : Word
  wa : RegIdx
  deriving DecidableEq, Repr

/-- The combinational pass of R111 over the word `w`, for one value `draw` of the ALU result under EQTEST. The memory is
read at the ALU result in every cycle (R126). DEDUCED (log entry 12; safe): the write-back value is selected by MemToReg alone
(R128, D10). -/
def signalsWith (draw : Word) (w : Word) (s : State) : Signals :=
  let control := controlRom (classify (opcodeField w) (functField w))
  let rsVal := s.readReg (rsField w)
  let rtVal := s.readReg (rtField w)
  let simm := sext32 (immField w)
  let zimm := zext32 (immField w)
  let aluB := selectOperandB control.aluSrc rtVal simm zimm
  let aluOut := alu draw control.aluOp rsVal aluB simm
  let memRdata := s.readMem aluOut.result
  { opcode := opcodeField w, control, rsVal, rtVal, simm, zimm, aluB, aluOut, memRdata
    wd := if control.memToReg then memRdata else aluOut.result
    wa := if control.regDst then rdField w else rtField w }

/-- The commit at the end of the cycle (R111, R118, R127, R130, R131). DEDUCED (log entry 11; safe): the PC unit
adds the ALU's offset and does not gate it by Branch (R115, D11). -/
def Signals.commit (g : Signals) (s : State) : State :=
  let afterMem := if g.control.memWrite then s.writeMem g.aluOut.result g.rtVal else s
  let afterReg := if g.control.regWrite then afterMem.writeReg g.wa g.wd else afterMem
  afterReg.advance g.aluOut.brOffset

/-- A cycle touches `DMEM_CAPACITY` only when MemToReg or MemWrite is set (D12). -/
def Signals.beyondCapacity (g : Signals) (s : State) : Bool :=
  (g.control.memToReg || g.control.memWrite) && !s.inCapacity g.aluOut.result

/-- The word's cycle with the model's stops of R254: UNKNOWN under `fault` (R231), and an access outside the capacity
(R57). -/
def wordCycleWith (draw : Word) (w : Word) (s : State) : Host.Outcome State Fault Refusal :=
  let g := signalsWith draw w s
  if classifyWord w = .unknown ∧ s.params.unknownPolicy = .fault then .fault (.unknownWord s.pc)
  else if g.beyondCapacity s then .fault (.beyondCapacity g.aluOut.result)
  else .next (g.commit s)

/-- The datapath's cycle for one value of the free ALU result. -/
def cycleWith (draw : Word) (s : State) : Host.Outcome State Fault Refusal :=
  match s.fetch with
  | none => .fault (.unloadedFetch s.pc)
  | some w => wordCycleWith draw w s

/-- The signals of a cycle, the ALU result under EQTEST being the free value of `Config`. -/
def signals (w : Word) (s : State) : Signals :=
  signalsWith
    (Config.eqtestResult (s.readReg (rsField w)) (s.readReg (rtField w)) (sext32 (immField w))) w s

/-- The datapath's cycle. -/
def cycle (s : State) : Host.Outcome State Fault Refusal :=
  match s.fetch with
  | none => .fault (.unloadedFetch s.pc)
  | some w =>
    wordCycleWith
      (Config.eqtestResult (s.readReg (rsField w)) (s.readReg (rtField w)) (sext32 (immField w))) w s

/-! ### Trace interface (R133) -/

/-- What the optional trace records of a cycle. -/
structure Trace where
  opcode : BitVec 6
  control : Control
  aluResult : Word
  pc : Word
  deriving DecidableEq, Repr

/-- The trace of the cycle the state is about to run. DESIGN CHOICE (log entry 23; safe): an observation, no state.
DESIGN CHOICE (log entry 27; unsafe for a claim about the trace of a step that stops): the spec gives no trace where a model
stops (R231, R254). At a stuck fetch there is none; at an UNKNOWN word under `fault` it shows the all-zero bundle that D1
gives for `nop`; at an access outside the capacity it shows the signals of the pass. -/
def State.trace (s : State) : Option Trace :=
  s.fetch.map fun w =>
    { opcode := (signals w s).opcode, control := (signals w s).control
      aluResult := (signals w s).aluOut.result, pc := s.pc }

end Sys2Proof.Machine
end

