-- ==== Sys2Proof/Safety.lean ====
section
/-! DEFINITION. The terms claims are stated in: the current instruction, what an instruction writes, the state invariant,
and runs. -/

namespace Sys2Proof.Safety

open Sys2Proof.Machine

/-- The instruction `step` runs at `s`; none where nothing is fetched or the word is UNKNOWN. -/
def current (s : State) : Option Instr :=
  match s.fetch with
  | none => none
  | some w =>
    match decode w with
    | .ok i => some i
    | .error _ => none

/-- The register an instruction writes (R24); index 0 means that nothing is written (R118). -/
def destination : Instr → Option RegIdx
  | .add rd _ _ | .and rd _ _ | .slt rd _ _ => some rd
  | .addi rt _ _ | .lui rt _ | .ori rt _ _ | .lw rt _ _ => some rt
  | .sw _ _ _ | .beq _ _ _ => none

/-- The word address an instruction stores to, by the function its meaning uses (R190, R192). -/
def storeAddress (i : Instr) (s : State) : Option Word :=
  match i with
  | .sw _ imm rs => some (s.effectiveAddress rs imm)
  | .add _ _ _ | .and _ _ _ | .slt _ _ _ | .addi _ _ _ | .lui _ _ | .ori _ _ _ | .lw _ _ _ | .beq _ _ _ => none

/-- The word address an instruction loads from or stores to (R190). -/
def dataAddress (i : Instr) (s : State) : Option Word :=
  match i with
  | .lw _ imm rs | .sw _ imm rs => some (s.effectiveAddress rs imm)
  | .add _ _ _ | .and _ _ _ | .slt _ _ _ | .addi _ _ _ | .lui _ _ | .ori _ _ _ | .beq _ _ _ => none

/-- The state invariant: both stores are in canonical form, and lane 0 holds 0 (R22). -/
structure StateInv (s : State) : Prop where
  dmem_wf : Memory.wf s.dmem
  imem_wf : InstrStore.wf s.imem
  lane_zero : s.regs[0] = 0

/-- From `s` to `t` every register reads as before except `d`, which reads 0 if it is register 0 (R22) and `v`
otherwise. -/
def WritesOnlyReg (s t : State) (d : RegIdx) (v : Word) : Prop :=
  ∀ r, t.readReg r = if r = d ∧ d ≠ 0 then v else s.readReg r

/-- Every register reads as before. -/
def SameRegs (s t : State) : Prop := ∀ r, t.readReg r = s.readReg r

/-- Every data word reads as before. -/
def SameMem (s t : State) : Prop := ∀ a, t.readMem a = s.readMem a

/-- The instruction store and the parameters are as before; no instruction writes them (R20, R30). -/
def SameProgram (s t : State) : Prop := t.imem = s.imem ∧ t.params = s.params

/-- The instruction retires having written `v` to register `d` (nothing if `d` is 0) and advanced the pc by 1, and all else
is as before. -/
def RetiresWriting (s t : State) (d : RegIdx) (v : Word) : Prop :=
  WritesOnlyReg s t d v ∧ t.pc = s.pc + 1 ∧ SameMem s t ∧ SameProgram s t

/-- Two states that no inspection (R136) tells apart and that hold the same program. -/
def LooksLike (s t : State) : Prop := t.pc = s.pc ∧ SameRegs s t ∧ SameMem s t ∧ SameProgram s t

/-- The state with another active clock edge. -/
def withClkEdge (e : ClkEdge) (s : State) : State := { s with params := { s.params with clkEdge := e } }

/-- `k` steps lead from `s` to `t`, all of them answering a next state. -/
def runsTo (k : Nat) (s t : State) : Prop := Sys2Proof.core.run k s = .next t

/-- The boot sequence and the run (R271, R273): the host loads a program, the core launches, and the host calls `step()`
`CYCLES` times. What it observes is the last state. -/
def hostRun (program : List Word) (rfInit : Vector Word 31) (dmemInit : Cells) (params : Params) (cycles : Nat) :
    Host.Outcome State Fault Refusal :=
  Sys2Proof.core.run cycles (State.launch program rfInit dmemInit params)

/-- For the next `k` steps from `s`, no step stores to the address `a`. -/
def noStoreTo (a : Word) : Nat → State → Prop
  | 0, _ => True
  | k + 1, s =>
    (∀ i, current s = some i → storeAddress i s ≠ some a) ∧ ∀ t, step s = .next t → noStoreTo a k t

/-- The configuration in which no stop of R254 can occur: UNKNOWN is a no-operation, every unfilled index holds a word,
and there is no capacity bound. -/
def Unstoppable (s : State) : Prop :=
  s.params.unknownPolicy = .nop ∧ (∃ w, s.params.imemUnloaded = .word w) ∧ s.params.dmemCapacity = none

end Sys2Proof.Safety
end

