-- ==== Sys2Proof/Certificates/Slice0/Obligations.lean ====
section
/-! DEFINITION. The statements for the provers, from the numbered rules of spec/. -/

open Sys2Proof Sys2Proof.Machine Sys2Proof.Safety

/-! ### Encoding (30_encoding.md) -/

/-- Words of 95_test_vectors.md L2.1, whose bits stand there, decode to what they stand for. -/
def Obligations.SpecWordsDecodeAsListed : Prop :=
  decode 0x00221820 = .ok (.add 3 1 2) ∧ decode 0x00221FE0 = .ok (.add 3 1 2) ∧
  decode 0x00221824 = .ok (.and 3 1 2) ∧ decode 0x0000002A = .ok (.slt 0 0 0) ∧
  decode 0x20000020 = .ok (.addi 0 0 0x0020) ∧ decode 0x3CE1FFFF = .ok (.lui 1 0xFFFF) ∧
  decode 0x34215678 = .ok (.ori 1 1 0x5678) ∧ decode 0x8C22FFFF = .ok (.lw 2 0xFFFF 1) ∧
  decode 0xAC63FFFE = .ok (.sw 3 0xFFFE 3) ∧ decode 0x1000FFFF = .ok (.beq 0 0 0xFFFF) ∧
  decode 0xFC00002A = .error (.unlisted 0x3f 0x2a) ∧ decode 0x00000000 = .error (.unlisted 0 0)

/-- Decode and encode agree: every well-formed instruction, with every value of every operand. -/
def Obligations.DecodeOfEncodeIsTheInstruction : Prop :=
  ∀ i : Instr, i.wellFormed = true → decode (encode i) = .ok i

/-- The other direction: encoding what a word decodes to gives the word with its ignored bits (R88) cleared. -/
def Obligations.EncodeOfDecodeClearsIgnoredBits : Prop :=
  ∀ (w : Word) (i : Instr), decode w = .ok i → encode i = w &&& usedBits i.tag

/-- R90, R230, opcode_table.json: a word is of a tag exactly when it matches a row of that tag under its mask, and UNKNOWN
exactly when no row matches. -/
def Obligations.ClassificationIsTheOpcodeTable : Prop :=
  ∀ w : Word,
    (∀ t, t ≠ Tag.unknown → (classifyWord w = t ↔ ∃ row ∈ opcodeTable, row.tag = t ∧ row.covers w = true)) ∧
    (classifyWord w = .unknown ↔ ∀ row ∈ opcodeTable, row.covers w = false)

/-- R88: for a listed word, the other words of the same instruction are exactly those that agree with it outside the
ignored bits; and, in the datapath that sees the whole word, the ignored bits change no effect. -/
def Obligations.IgnoredBitsChangeNothing : Prop :=
  ∀ w w' : Word, classifyWord w ≠ .unknown →
    (decode w' = decode w ↔ w' &&& usedBits (classifyWord w) = w &&& usedBits (classifyWord w)) ∧
    (w' &&& usedBits (classifyWord w) = w &&& usedBits (classifyWord w) →
      ∀ draw s, wordCycleWith draw w' s = wordCycleWith draw w s)

/-! ### The step (40_datapath.md, 45_unlisted.md, 60_exceptions.md) -/

/-- R135: a step runs the decoded instruction, and nothing is added around `exec`; the host's one-word load is what the next
step fetches. -/
def Obligations.StepRunsTheDecodedInstruction : Prop :=
  (∀ s w i, s.fetch = some w → decode w = .ok i → step s = exec i s) ∧
  (∀ (s : State) (w : Word), (s.withFetchWord 32 w.toNat).fetch = some w)

/-- R230: UNKNOWN under `nop` advances the pc and changes nothing else; its bundle is all zero; it is every word whose
opcode, or whose funct under opcode 0, is not listed. `nop` is the spec's decision D1 (log entry 6). -/
def Obligations.UnlistedWordOnlyAdvancesThePc : Prop :=
  (∀ w : Word, classifyWord w = .unknown ↔
    opcodeField w ∉ [0x00, 0x04, 0x08, 0x0d, 0x0f, 0x23, 0x2b] ∨
      opcodeField w = 0x00 ∧ functField w ∉ [0x20, 0x24, 0x2a]) ∧
  controlRom .unknown = { regDst := false, branch := false, regWrite := false, aluSrc := .reg, memWrite := false,
                          memToReg := false, aluOp := .add } ∧
  ∀ s w, s.fetch = some w → classifyWord w = .unknown → s.params.unknownPolicy = .nop →
    ∃ t, step s = .next t ∧ t.pc = s.pc + 1 ∧ SameRegs s t ∧ SameMem s t ∧ SameProgram s t

/-- R254: the stops are exactly three, each with its own condition, and a step refuses nothing. -/
def Obligations.StopsAreExactlyTheThreeOfTheSpec : Prop :=
  ∀ s : State, (∀ r, step s ≠ .refused r) ∧ ∀ f, step s = .fault f ↔
    (Cells.lookup s.imem s.pc.toNat = none ∧ s.params.imemUnloaded = .stuck ∧ f = .unloadedFetch s.pc) ∨
    (∃ i a c, current s = some i ∧ dataAddress i s = some a ∧ s.params.dmemCapacity = some c ∧ c ≤ a.toNat ∧
      f = .beyondCapacity a) ∨
    (∃ w, s.fetch = some w ∧ classifyWord w = .unknown ∧ s.params.unknownPolicy = .fault ∧ f = .unknownWord s.pc)

/-- R57: with a capacity set, LW and SW outside it are stuck and are given no value, and no other instruction ever is. -/
def Obligations.OnlyAccessesBeyondCapacityAreStuck : Prop :=
  ∀ (i : Instr) (s : State) (f : Fault), exec i s = .fault f ↔
    ∃ a c, dataAddress i s = some a ∧ s.params.dmemCapacity = some c ∧ c ≤ a.toNat ∧ f = .beyondCapacity a

/-- R132, R240, R242: with no capacity bound and UNKNOWN a no-operation, every fetched word, in every state, steps to a next
state. -/
def Obligations.EveryFetchedWordRetires : Prop :=
  ∀ s w, s.fetch = some w → s.params.unknownPolicy = .nop → s.params.dmemCapacity = none →
    ∃ t, step s = .next t

/-- R211, R253: the core has no halt. Where no stop of R254 is configured, it runs any number of steps. -/
def Obligations.CoreNeverHalts : Prop :=
  ∀ s, Unstoppable s → ∀ k, ∃ t, runsTo k s t ∧ Unstoppable t

/-- R135: one step is one application of R111. The per-instruction rules (R150 to R231), which `step` runs, and the datapath
of components, which `cycle` is, are the same machine. That the machine is written twice is the model's choice (log entry
19), and the stops on both sides are R254's options under the parameters of log entries 5, 6 and 7. -/
def Obligations.StepIsTheDatapathCycle : Prop :=
  ∀ s, step s = cycle s

/-- R125: under EQTEST the ALU result may be any value, and no next state depends on it. -/
def Obligations.EqtestResultReachesNoState : Prop :=
  (∀ draw w s, classifyWord w = .beq → (signalsWith draw w s).aluOut.result = draw) ∧
  (∀ draw draw' s, cycleWith draw s = cycleWith draw' s)

/-- R110: no rule depends on the active clock edge. -/
def Obligations.NoRuleReadsTheClockEdge : Prop :=
  ∀ e s, (∀ t, step s = .next t → step (withClkEdge e s) = .next (withClkEdge e t)) ∧
    (∀ f, step s = .fault f → step (withClkEdge e s) = .fault f)

/-- R34, R132: nothing beyond what inspection shows decides the next state: states that look alike step alike, in whatever
form their cells are listed and whatever lane 0 holds. -/
def Obligations.NoHiddenStateIsObservable : Prop :=
  ∀ s s' : State, LooksLike s s' →
    (∀ t, step s = .next t → ∃ t', step s' = .next t' ∧ LooksLike t t') ∧
    (∀ f, step s = .fault f → step s' = .fault f)

/-! ### Commit (40_datapath.md) -/

/-- R118: the register write port of the cycle. A write to index 0 changes nothing. -/
def Obligations.RegisterWritePort : Prop :=
  ∀ draw w s t, wordCycleWith draw w s = .next t → ∀ r,
    t.readReg r =
      if (signalsWith draw w s).control.regWrite = true ∧ (signalsWith draw w s).wa ≠ 0 ∧ r = (signalsWith draw w s).wa
      then (signalsWith draw w s).wd else s.readReg r

/-- R121: the extenders, in the spec's own form. -/
def Obligations.ExtendersCopyTheSignOrPadZeros : Prop :=
  ∀ imm : Imm, sext32 imm = (if imm.getLsbD 15 = true then 0xFFFF#16 else 0x0000#16) ++ imm ∧
    zext32 imm = 0x0000#16 ++ imm

/-- R115: in every cycle the ALU's offset is already 0 unless Branch is set, so gating it by Branch would change nothing. -/
def Obligations.GatingTheOffsetByBranchChangesNothing : Prop :=
  (∀ w, (controlRom (classifyWord w)).branch = true ↔ (controlRom (classifyWord w)).aluOp = .eqTest) ∧
  ∀ draw w s, (signalsWith draw w s).aluOut.brOffset =
    if (signalsWith draw w s).control.branch = true then (signalsWith draw w s).aluOut.brOffset else 0

/-- R127: the data memory write of the cycle, at the ALU result, of the value of register rt at the start of the cycle. -/
def Obligations.DataMemoryWritePort : Prop :=
  ∀ draw w s t, wordCycleWith draw w s = .next t → ∀ a,
    t.readMem a =
      if (signalsWith draw w s).control.memWrite = true ∧ a = (signalsWith draw w s).aluOut.result
      then s.readReg (rtField w) else s.readMem a

/-- R124, R130: the next PC of every step: pc + 1, and for a BEQ of equal registers the unshifted sign-extended immediate
on top. -/
def Obligations.NextPcOfEveryStep : Prop :=
  ∀ s t, step s = .next t →
    t.pc = s.pc + 1 + match current s with
      | some (.beq rs rt imm) => if s.readReg rs = s.readReg rt then imm.signExtend 32 else 0
      | _ => 0

/-- R129, R131: a cycle changes at most one register and at most one data word, never both kinds, and besides the pc
nothing else; and no word's bundle enables both writes. -/
def Obligations.AtMostOneWritePerCycle : Prop :=
  (∀ w, ¬((controlRom (classifyWord w)).memWrite = true ∧ (controlRom (classifyWord w)).regWrite = true)) ∧
  ∀ s t, step s = .next t →
    (SameRegs s t ∨ SameMem s t) ∧ SameProgram s t ∧
    (∀ r r', t.readReg r ≠ s.readReg r → t.readReg r' ≠ s.readReg r' → r = r') ∧
    (∀ a a', t.readMem a ≠ s.readMem a → t.readMem a' ≠ s.readMem a' → a = a')

/-- R24: a step changes a register only if RegWrite is set, only at the destination (rd for ADD, AND and SLT, rt for ADDI,
LUI, ORI and LW), and never register 0; SW, BEQ and UNKNOWN write none. -/
def Obligations.RegistersChangeOnlyAtTheDestination : Prop :=
  (∀ w i, decode w = .ok i → destination i =
    if (controlRom i.tag).regWrite = true then
      some (if (controlRom i.tag).regDst = true then rdField w else rtField w)
    else none) ∧
  ∀ s t, step s = .next t → ∀ r, t.readReg r ≠ s.readReg r →
    r ≠ 0 ∧ ∃ i, current s = some i ∧ destination i = some r

/-! ### The instructions (41 to 44): result, frame and completion -/

/-- R150: ADD. -/
def Obligations.AddWrapsInto32Bits : Prop :=
  (∀ w : Word, w &&& 0xFC00003F = 0x00000020 → decode w = .ok (.add (rdField w) (rsField w) (rtField w))) ∧
  controlRom .add = { regDst := true, branch := false, regWrite := true, aluSrc := .reg, memWrite := false,
                      memToReg := false, aluOp := .add } ∧
  ∀ rd rs rt s, ∃ t, exec (.add rd rs rt) s = .next t ∧
    RetiresWriting s t rd (BitVec.ofNat 32 ((s.readReg rs).toNat + (s.readReg rt).toNat))

/-- R151: AND. -/
def Obligations.AndIsBitwise : Prop :=
  (∀ w : Word, w &&& 0xFC00003F = 0x00000024 → decode w = .ok (.and (rdField w) (rsField w) (rtField w))) ∧
  controlRom .and = { regDst := true, branch := false, regWrite := true, aluSrc := .reg, memWrite := false,
                      memToReg := false, aluOp := .and } ∧
  ∀ rd rs rt s, ∃ t, exec (.and rd rs rt) s = .next t ∧
    RetiresWriting s t rd (s.readReg rs &&& s.readReg rt)

/-- R152: SLT. -/
def Obligations.SltComparesSigned : Prop :=
  (∀ w : Word, w &&& 0xFC00003F = 0x0000002A → decode w = .ok (.slt (rdField w) (rsField w) (rtField w))) ∧
  controlRom .slt = { regDst := true, branch := false, regWrite := true, aluSrc := .reg, memWrite := false,
                      memToReg := false, aluOp := .slt } ∧
  ∀ rd rs rt s, ∃ t, exec (.slt rd rs rt) s = .next t ∧
    RetiresWriting s t rd (if (s.readReg rs).toInt < (s.readReg rt).toInt then 0x00000001 else 0x00000000)

/-- R170: ADDI. -/
def Obligations.AddiAddsTheSignExtendedImmediate : Prop :=
  (∀ w : Word, w &&& 0xFC000000 = 0x20000000 → decode w = .ok (.addi (rtField w) (rsField w) (immField w))) ∧
  controlRom .addi = { regDst := false, branch := false, regWrite := true, aluSrc := .signExt, memWrite := false,
                       memToReg := false, aluOp := .add } ∧
  ∀ rt rs imm s, ∃ t, exec (.addi rt rs imm) s = .next t ∧
    RetiresWriting s t rt (BitVec.ofInt 32 ((s.readReg rs).toInt + imm.toInt))

/-- R171: LUI. -/
def Obligations.LuiPlacesTheImmediateHigh : Prop :=
  (∀ w : Word, w &&& 0xFC000000 = 0x3C000000 → decode w = .ok (.lui (rtField w) (immField w))) ∧
  controlRom .lui = { regDst := false, branch := false, regWrite := true, aluSrc := .signExt, memWrite := false,
                      memToReg := false, aluOp := .luiShift } ∧
  ∀ rt imm s, ∃ t, exec (.lui rt imm) s = .next t ∧
    RetiresWriting s t rt (BitVec.ofNat 32 (imm.toNat * 2 ^ 16))

/-- R172: ORI. -/
def Obligations.OriZeroExtendsTheImmediate : Prop :=
  (∀ w : Word, w &&& 0xFC000000 = 0x34000000 → decode w = .ok (.ori (rtField w) (rsField w) (immField w))) ∧
  controlRom .ori = { regDst := false, branch := false, regWrite := true, aluSrc := .zeroExt, memWrite := false,
                      memToReg := false, aluOp := .or } ∧
  ∀ rt rs imm s, ∃ t, exec (.ori rt rs imm) s = .next t ∧
    RetiresWriting s t rt (s.readReg rs ||| BitVec.ofNat 32 imm.toNat)

/-- R190: the effective address is the exact sum of base and signed offset, modulo 2^32; the offset is
unscaled. -/
def Obligations.EffectiveAddressIsBasePlusOffset : Prop :=
  ∀ (s : State) rs imm, s.effectiveAddress rs imm = BitVec.ofInt 32 ((s.readReg rs).toNat + imm.toInt)

/-- R191: LW, at every address inside the capacity (all of them where none is set). -/
def Obligations.LwLoadsTheWord : Prop :=
  (∀ w : Word, w &&& 0xFC000000 = 0x8C000000 → decode w = .ok (.lw (rtField w) (immField w) (rsField w))) ∧
  controlRom .lw = { regDst := false, branch := false, regWrite := true, aluSrc := .signExt, memWrite := false,
                     memToReg := true, aluOp := .add } ∧
  (∀ (s : State) a, s.params.dmemCapacity = none → s.inCapacity a = true) ∧
  ∀ rt imm rs s, s.inCapacity (s.effectiveAddress rs imm) = true → ∃ t, exec (.lw rt imm rs) s = .next t ∧
    s.effectiveAddress rs imm = BitVec.ofInt 32 ((s.readReg rs).toInt + imm.toInt) ∧
    RetiresWriting s t rt (s.readMem (s.effectiveAddress rs imm))

/-- R192: SW, at every address inside the capacity (all of them where none is set). -/
def Obligations.SwStoresTheWord : Prop :=
  (∀ w : Word, w &&& 0xFC000000 = 0xAC000000 → decode w = .ok (.sw (rtField w) (immField w) (rsField w))) ∧
  controlRom .sw = { regDst := false, branch := false, regWrite := false, aluSrc := .signExt, memWrite := true,
                     memToReg := false, aluOp := .add } ∧
  (∀ (s : State) a, s.params.dmemCapacity = none → s.inCapacity a = true) ∧
  ∀ rt imm rs s, s.inCapacity (s.effectiveAddress rs imm) = true → ∃ t, exec (.sw rt imm rs) s = .next t ∧
    s.effectiveAddress rs imm = BitVec.ofInt 32 ((s.readReg rs).toInt + imm.toInt) ∧
    (∀ a, t.readMem a = if a = s.effectiveAddress rs imm then s.readReg rt else s.readMem a) ∧
    t.pc = s.pc + 1 ∧ SameRegs s t ∧ SameProgram s t

/-- R210: BEQ. -/
def Obligations.BeqAddsTheUnscaledOffset : Prop :=
  (∀ w : Word, w &&& 0xFC000000 = 0x10000000 → decode w = .ok (.beq (rsField w) (rtField w) (immField w))) ∧
  controlRom .beq = { regDst := false, branch := true, regWrite := false, aluSrc := .reg, memWrite := false,
                      memToReg := false, aluOp := .eqTest } ∧
  ∀ rs rt imm s, ∃ t, exec (.beq rs rt imm) s = .next t ∧
    t.pc = BitVec.ofInt 32 (s.pc.toNat + 1 + if s.readReg rs = s.readReg rt then imm.toInt else 0) ∧
    SameRegs s t ∧ SameMem s t ∧ SameProgram s t

/-- The frame of all nine instructions (R24, R131): when `exec` gives a next state, every register other than the destination
reads as before, register 0 included; every word of memory other than the one at the address stored to reads as before; and
the instruction store and the parameters are as before. The pc may change. -/
def Obligations.ExecChangesNothingElse : Prop :=
  ∀ i s t, exec i s = .next t →
    (∀ r, r = 0 ∨ destination i ≠ some r → t.readReg r = s.readReg r) ∧
    (∀ a, storeAddress i s ≠ some a → t.readMem a = s.readMem a) ∧ SameProgram s t

/-- R211, R93: a BEQ of equal registers with offset -1 holds the whole state in place for any number of steps. -/
def Obligations.SelfLoopParksTheCore : Prop :=
  ∀ s rs rt, current s = some (.beq rs rt 0xFFFF) → s.readReg rs = s.readReg rt → ∀ k, runsTo k s s

/-! ### Memory over runs (20_memory.md) -/

/-- R60: a load returns the value of the latest store to its address, whatever ran between; and with no store to it since
launch, the word of `DMEM_INIT`. -/
def Obligations.LoadReturnsTheLatestStore : Prop :=
  (∀ s t u k rt rs imm rt' rs' imm', current s = some (.sw rt imm rs) → step s = .next t →
    noStoreTo (s.effectiveAddress rs imm) k t → runsTo k t u → current u = some (.lw rt' imm' rs') →
    u.effectiveAddress rs' imm' = s.effectiveAddress rs imm →
    ∃ v, step u = .next v ∧ v.readReg rt' = if rt' = 0 then 0 else s.readReg rt) ∧
  (∀ program rfInit dmemInit params u v k rt rs imm, runsTo k (State.launch program rfInit dmemInit params) u →
    current u = some (.lw rt imm rs) →
    noStoreTo (u.effectiveAddress rs imm) k (State.launch program rfInit dmemInit params) →
    step u = .next v → v.readReg rt = if rt = 0 then 0 else Memory.read dmemInit (u.effectiveAddress rs imm))

/-- R30, R63, R275: no run, of any length and from any state, writes the instruction store or a parameter, so a later fetch
at an index gives what an earlier one gave there. -/
def Obligations.RunsNeverWriteTheInstructionStore : Prop :=
  ∀ k s t, runsTo k s t → SameProgram s t ∧ (t.pc = s.pc → t.fetch = s.fetch)

/-- The spec's `DMEM_INIT` may be any function (R29, D5): each is the contents of exactly one memory in canonical form, so
that statements about every state are about every `DMEM_INIT`, and equal contents are equal data (log entry 3). -/
def Obligations.EveryDmemInitIsOneCanonicalMemory : Prop :=
  ∀ f : Word → Word, ∃! m : Cells, Memory.wf m ∧ ∀ a, Memory.read m a = f a

/-! ### Launch and invariant (70_reset_and_hazards.md) -/

/-- R25, R28, R29, R30, R270: the launch state for every program, `RF_INIT`, `DMEM_INIT` and parameters. -/
def Obligations.LaunchStateIsAsTheSpecLists : Prop :=
  ∀ (program : List Word) (rfInit : Vector Word 31) (dmemInit : Cells) (params : Params),
    (State.launch program rfInit dmemInit params).pc = 0 ∧
    (State.launch program rfInit dmemInit params).readReg 0 = 0 ∧
    (∀ (r : Nat) (h : r < 31),
      (State.launch program rfInit dmemInit params).readReg (BitVec.ofNat 5 (r + 1)) = rfInit[r]) ∧
    (∀ a, (State.launch program rfInit dmemInit params).readMem a = Memory.read dmemInit a) ∧
    (∀ k, Cells.lookup (State.launch program rfInit dmemInit params).imem k = program[k]?) ∧
    (State.launch program rfInit dmemInit params).params = params

/-- `State.reset` is the launch state with nothing loaded, in the spec's configuration. That registers 1 to 31 and the data
memory are 0 in it is the model's choice (log entries 2 and 3), and so are `stuck` and the rising edge (log entries 5
and 8). -/
def Obligations.ResetIsALaunchState : Prop :=
  State.reset = State.launch [] (Vector.replicate 31 0) [] Params.spec ∧
  State.reset.pc = 0 ∧ (∀ r, State.reset.readReg r = 0) ∧ (∀ a, State.reset.readMem a = 0) ∧
  State.reset.params.unknownPolicy = .nop ∧ State.reset.params.dmemCapacity = none

/-- The invariant holds at reset. -/
def Obligations.ResetMeetsTheInvariant : Prop :=
  StateInv State.reset

/-- The invariant holds at every launch from a program of at most 2^32 words and a data memory in canonical form. -/
def Obligations.LaunchMeetsTheInvariant : Prop :=
  ∀ program rfInit dmemInit params, wellFormedProgram program = true → Memory.wf dmemInit →
    StateInv (State.launch program rfInit dmemInit params)

/-- Every step keeps the invariant: both stores stay in canonical form, and the hard-wired lane stays 0. -/
def Obligations.StepKeepsTheInvariant : Prop :=
  ∀ s t, StateInv s → step s = .next t → StateInv t

/-! ### Trace (40_datapath.md R133) -/

/-- R128, R133: the trace of a cycle shows its opcode, bundle and pc, and the ALU result it shows is what the step's
instruction writes back, or, for LW, the address whose word it writes back, and, for SW, the address it stores to. -/
def Obligations.TraceShowsTheCycle : Prop :=
  ∀ s t w, s.fetch = some w → step s = .next t →
    ∃ tr, s.trace = some tr ∧ tr.opcode = opcodeField w ∧ tr.control = controlRom (classifyWord w) ∧ tr.pc = s.pc ∧
    ∀ i, decode w = .ok i →
      (∀ d, destination i = some d → d ≠ 0 →
        t.readReg d = if tr.control.memToReg = true then s.readMem tr.aluResult else tr.aluResult) ∧
      (∀ a, dataAddress i s = some a → tr.aluResult = a)
end

