-- ==== Sys2Proof/Laws/Boot.lean ====
section
/-! SUPPORT. What the loader leaves in the instruction store. -/

namespace Sys2Proof.Machine

/-- Words at consecutive indices from `n` on: index `k` holds word `k - n`. -/
theorem lookup_cellsFrom (program : List Word) (n k : Nat) :
    Cells.lookup (cellsFrom n program) k = if k < n then none else program[k - n]? := by
  induction program generalizing n with
  | nil => simp [cellsFrom, Cells.lookup]
  | cons w ws ih =>
    rw [cellsFrom, Cells.lookup, ih]
    rcases Nat.lt_trichotomy k n with h | h | h
    · rw [if_neg (by omega), if_pos (by omega), if_pos h]
    · simp [h]
    · rw [if_neg (by omega), if_neg (by omega), if_neg (by omega), show k - n = (k - (n + 1)) + 1 by omega,
        List.getElem?_cons_succ]

/-- The indices the loader fills. -/
theorem index_of_mem_cellsFrom {program : List Word} {n : Nat} {c : Nat × Word} (h : c ∈ cellsFrom n program) :
    n ≤ c.1 ∧ c.1 < n + program.length := by
  induction program generalizing n with
  | nil => simp [cellsFrom] at h
  | cons w ws ih =>
    rcases List.mem_cons.1 h with rfl | h
    · simp
    · have := ih h
      simp only [List.length_cons]
      omega

/-- The loader lists indices in rising order. -/
theorem pairwise_cellsFrom (program : List Word) (n : Nat) :
    (cellsFrom n program).Pairwise (fun x y => x.1 < y.1) := by
  induction program generalizing n with
  | nil => simp [cellsFrom]
  | cons w ws ih =>
    refine List.pairwise_cons.2 ⟨fun c hc => ?_, ih _⟩
    have := index_of_mem_cellsFrom hc
    simp only
    omega

end Sys2Proof.Machine
end

