-- ==== Sys2Proof/Laws/Decode.lean ====
section
/-! SUPPORT. The fields of an encoded word, a word from its fields, and classification in fields (30_encoding.md). -/

namespace Sys2Proof

variable (op funct : BitVec 6) (rd rs rt : RegIdx) (imm : Imm)

@[simp] theorem opcodeField_encI : opcodeField (encI op rt rs imm) = op := by
  ext i hi; interval_cases i <;> simp [opcodeField, encI]

@[simp] theorem rsField_encI : rsField (encI op rt rs imm) = rs := by
  ext i hi; interval_cases i <;> simp [rsField, encI]

@[simp] theorem rtField_encI : rtField (encI op rt rs imm) = rt := by
  ext i hi; interval_cases i <;> simp [rtField, encI]

@[simp] theorem immField_encI : immField (encI op rt rs imm) = imm := by
  ext i hi; interval_cases i <;> simp [immField, encI]

@[simp] theorem opcodeField_encR : opcodeField (encR rd rs rt funct) = 0 := by
  ext i hi; interval_cases i <;> simp [opcodeField, encR]

@[simp] theorem rsField_encR : rsField (encR rd rs rt funct) = rs := by
  ext i hi; interval_cases i <;> simp [rsField, encR]

@[simp] theorem rtField_encR : rtField (encR rd rs rt funct) = rt := by
  ext i hi; interval_cases i <;> simp [rtField, encR]

@[simp] theorem rdField_encR : rdField (encR rd rs rt funct) = rd := by
  ext i hi; interval_cases i <;> simp [rdField, encR]

@[simp] theorem functField_encR : functField (encR rd rs rt funct) = funct := by
  ext i hi; interval_cases i <;> simp [functField, encR]

/-- The mask of an I-type row keeps exactly the opcode. -/
theorem and_opcodeMask {w p : Word} :
    w &&& 0xFC000000 = p &&& 0xFC000000 ↔ opcodeField w = opcodeField p := by
  constructor <;> intro h
  · ext i hi
    have := congrArg (·.getLsbD (26 + i)) h
    interval_cases i <;> simpa [opcodeField] using this
  · ext i hi
    have := congrArg (·.getLsbD (i - 26)) h
    interval_cases i <;> first | (simp; done) | simpa [opcodeField] using this

/-- The mask of an R-type row keeps exactly the opcode and the funct. -/
theorem and_functMask {w p : Word} :
    w &&& 0xFC00003F = p &&& 0xFC00003F ↔ opcodeField w = opcodeField p ∧ functField w = functField p := by
  constructor
  · intro h
    constructor
    · ext i hi
      have := congrArg (·.getLsbD (26 + i)) h
      interval_cases i <;> simpa [opcodeField] using this
    · ext i hi
      have := congrArg (·.getLsbD i) h
      interval_cases i <;> simpa [functField] using this
  · rintro ⟨h, h'⟩
    ext i hi
    have h := congrArg (·.getLsbD (i - 26)) h
    have h' := congrArg (·.getLsbD i) h'
    interval_cases i <;> first | (simp; done) | simpa [opcodeField] using h | simpa [functField] using h'

/-- What a row of the opcode table covers, in fields: its opcode, and under opcode 0 its funct. -/
theorem covers_iff_fields (w : Word) : ∀ row ∈ opcodeTable, row.covers w = true ↔
    opcodeField w = opcodeField row.pattern ∧ (opcodeField w = 0 → functField w = functField row.pattern) := by
  have rRow (t : Tag) (p : Word) (hp : p = p &&& 0xFC00003F) (h0 : opcodeField p = 0) :
      OpcodeRow.covers ⟨t, 0xFC00003F, p⟩ w = true ↔
        opcodeField w = opcodeField p ∧ (opcodeField w = 0 → functField w = functField p) := by
    simp only [OpcodeRow.covers, beq_iff_eq]
    rw [hp, and_functMask, ← hp]
    exact ⟨fun h => ⟨h.1, fun _ => h.2⟩, fun h => ⟨h.1, h.2 (h.1.trans h0)⟩⟩
  have iRow (t : Tag) (p : Word) (hp : p = p &&& 0xFC000000) (h0 : opcodeField p ≠ 0) :
      OpcodeRow.covers ⟨t, 0xFC000000, p⟩ w = true ↔
        opcodeField w = opcodeField p ∧ (opcodeField w = 0 → functField w = functField p) := by
    simp only [OpcodeRow.covers, beq_iff_eq]
    rw [hp, and_opcodeMask, ← hp]
    exact ⟨fun h => ⟨h, fun hw => absurd (h.symm.trans hw) h0⟩, fun h => h.1⟩
  simp only [opcodeTable, List.forall_mem_cons]
  refine ⟨?_, ?_, ?_, ?_, ?_, ?_, ?_, ?_, ?_, by simp⟩
  iterate 3 exact rRow _ _ (by decide) (by decide)
  iterate 6 exact iRow _ _ (by decide) (by decide)

/-! ### A word from its fields -/

/-- A word is its I-type fields. -/
theorem encI_fields (w : Word) : encI (opcodeField w) (rtField w) (rsField w) (immField w) = w := by
  ext i hi
  interval_cases i <;> simp [encI, opcodeField, rtField, rsField, immField]

/-- A word without its rs bits is its other I-type fields. -/
theorem encI_fields_no_rs (w : Word) :
    encI (opcodeField w) (rtField w) 0 (immField w) = w &&& 0xFC1FFFFF := by
  have hop : opcodeField (w &&& 0xFC1FFFFF) = opcodeField w := by
    rw [opcodeField, BitVec.extractLsb'_and]; exact BitVec.and_allOnes
  have hrs : rsField (w &&& 0xFC1FFFFF) = 0 := by
    rw [rsField, BitVec.extractLsb'_and]; exact BitVec.and_zero
  have hrt : rtField (w &&& 0xFC1FFFFF) = rtField w := by
    rw [rtField, BitVec.extractLsb'_and]; exact BitVec.and_allOnes
  have himm : immField (w &&& 0xFC1FFFFF) = immField w := by
    rw [immField, BitVec.extractLsb'_and]; exact BitVec.and_allOnes
  rw [← encI_fields (w &&& 0xFC1FFFFF), hop, hrs, hrt, himm]

/-- An opcode-0 word without bits 10 to 6 is its R-type fields. -/
theorem encR_fields {w : Word} (h : opcodeField w = 0) :
    encR (rdField w) (rsField w) (rtField w) (functField w) = w &&& 0xFFFFF83F := by
  ext i hi
  have h := congrArg (·.getLsbD (i - 26)) h
  interval_cases i <;>
  first
  | (simp [encR, rdField, rsField, rtField, functField]; done)
  | simpa [encR, rdField, rsField, rtField, functField, opcodeField] using h

/-! ### Classification in fields (R85) -/

variable {w : Word}

theorem classifyWord_eq_add : classifyWord w = .add ↔ opcodeField w = 0x00 ∧ functField w = 0x20 := by
  unfold classifyWord classify; split_ifs <;> simp_all
theorem classifyWord_eq_and : classifyWord w = .and ↔ opcodeField w = 0x00 ∧ functField w = 0x24 := by
  unfold classifyWord classify; split_ifs <;> simp_all
theorem classifyWord_eq_slt : classifyWord w = .slt ↔ opcodeField w = 0x00 ∧ functField w = 0x2a := by
  unfold classifyWord classify; split_ifs <;> simp_all
theorem classifyWord_eq_addi : classifyWord w = .addi ↔ opcodeField w = 0x08 := by
  unfold classifyWord classify; split_ifs <;> simp_all
theorem classifyWord_eq_lui : classifyWord w = .lui ↔ opcodeField w = 0x0f := by
  unfold classifyWord classify; split_ifs <;> simp_all
theorem classifyWord_eq_ori : classifyWord w = .ori ↔ opcodeField w = 0x0d := by
  unfold classifyWord classify; split_ifs <;> simp_all
theorem classifyWord_eq_lw : classifyWord w = .lw ↔ opcodeField w = 0x23 := by
  unfold classifyWord classify; split_ifs <;> simp_all
theorem classifyWord_eq_sw : classifyWord w = .sw ↔ opcodeField w = 0x2b := by
  unfold classifyWord classify; split_ifs <;> simp_all
theorem classifyWord_eq_beq : classifyWord w = .beq ↔ opcodeField w = 0x04 := by
  unfold classifyWord classify; split_ifs <;> simp_all

/-- The tag of the decoded instruction is the word's tag. -/
theorem tag_of_decode {i : Instr} (h : decode w = .ok i) : i.tag = classifyWord w := by
  unfold decode at h
  split at h <;> cases h <;> simp_all [Instr.tag]

/-- A word is rejected exactly when its tag is UNKNOWN. -/
theorem decode_eq_error : (∃ e, decode w = .error e) ↔ classifyWord w = .unknown := by
  unfold decode; split <;> simp_all

end Sys2Proof
end

