-- ==== Sys2Proof/Laws/State.lean ====
section
/-! SUPPORT. One lemma per field per update of the state. -/

namespace Sys2Proof.Machine

variable (s : State) (r : RegIdx) (a v : Word) (nbits w : Nat)

@[simp] theorem State.writeReg_pc : (s.writeReg r v).pc = s.pc := rfl
@[simp] theorem State.writeReg_regs :
    (s.writeReg r v).regs = if r = 0 then s.regs else s.regs.set r.toNat v r.isLt := rfl
@[simp] theorem State.writeReg_dmem : (s.writeReg r v).dmem = s.dmem := rfl
@[simp] theorem State.writeReg_imem : (s.writeReg r v).imem = s.imem := rfl
@[simp] theorem State.writeReg_params : (s.writeReg r v).params = s.params := rfl

@[simp] theorem State.writeMem_pc : (s.writeMem a v).pc = s.pc := rfl
@[simp] theorem State.writeMem_regs : (s.writeMem a v).regs = s.regs := rfl
@[simp] theorem State.writeMem_dmem : (s.writeMem a v).dmem = Memory.write s.dmem a v := rfl
@[simp] theorem State.writeMem_imem : (s.writeMem a v).imem = s.imem := rfl
@[simp] theorem State.writeMem_params : (s.writeMem a v).params = s.params := rfl

@[simp] theorem State.advance_pc : (s.advance v).pc = s.pc + 1 + v := rfl
@[simp] theorem State.advance_regs : (s.advance v).regs = s.regs := rfl
@[simp] theorem State.advance_dmem : (s.advance v).dmem = s.dmem := rfl
@[simp] theorem State.advance_imem : (s.advance v).imem = s.imem := rfl
@[simp] theorem State.advance_params : (s.advance v).params = s.params := rfl

@[simp] theorem State.withFetchWord_pc : (s.withFetchWord nbits w).pc = s.pc := rfl
@[simp] theorem State.withFetchWord_regs : (s.withFetchWord nbits w).regs = s.regs := rfl
@[simp] theorem State.withFetchWord_dmem : (s.withFetchWord nbits w).dmem = s.dmem := rfl
@[simp] theorem State.withFetchWord_imem :
    (s.withFetchWord nbits w).imem = Cells.insert s.imem s.pc.toNat (BitVec.ofNat 32 (w % 2 ^ nbits)) := rfl
@[simp] theorem State.withFetchWord_params : (s.withFetchWord nbits w).params = s.params := rfl

end Sys2Proof.Machine
end

