-- ==== Sys2Proof/Laws/Memory.lean ====
section
/-! SUPPORT. Cells and the data memory: a read after a write, and that every operation keeps the canonical form. The read
laws need no canonical form, so they hold in every state. -/

namespace Sys2Proof.Machine

@[simp] theorem Cells.lookup_nil (a : Nat) : Cells.lookup [] a = none := rfl

theorem Cells.lookup_cons (k : Nat) (x : Word) (m : Cells) (a : Nat) :
    Cells.lookup ((k, x) :: m) a = if k = a then some x else Cells.lookup m a := rfl

theorem Cells.lookup_insert (m : Cells) (a : Nat) (v : Word) (b : Nat) :
    Cells.lookup (Cells.insert m a v) b = if b = a then some v else Cells.lookup m b := by
  induction m with
  | nil => simp only [Cells.insert, Cells.lookup_cons, eq_comm]
  | cons c m ih =>
    obtain ⟨k, x⟩ := c
    rw [Cells.insert]
    split
    · simp only [Cells.lookup_cons, eq_comm]
    · split
      · subst a; simp only [Cells.lookup_cons, eq_comm (a := b)]; split <;> simp_all
      · simp only [Cells.lookup_cons, ih]; split <;> split <;> simp_all

theorem Cells.lookup_erase (m : Cells) (a b : Nat) :
    Cells.lookup (Cells.erase m a) b = if b = a then none else Cells.lookup m b := by
  induction m with
  | nil => simp [Cells.erase]
  | cons c m ih =>
    obtain ⟨k, x⟩ := c
    rw [Cells.erase]
    simp only [Cells.lookup_cons]
    split
    · subst k; rw [ih]; simp only [eq_comm (a := b)]; split <;> rfl
    · simp only [Cells.lookup_cons, ih]; split <;> split <;> simp_all

theorem Cells.mem_insert {m : Cells} {a : Nat} {v : Word} {c : Nat × Word} (h : c ∈ Cells.insert m a v) :
    c = (a, v) ∨ c ∈ m := by
  induction m with
  | nil => simpa [Cells.insert] using h
  | cons d m ih =>
    obtain ⟨k, x⟩ := d
    rw [Cells.insert] at h
    split at h
    · simpa using h
    · split at h
      · simp only [List.mem_cons] at h ⊢; tauto
      · simp only [List.mem_cons] at h ⊢
        rcases h with h | h
        · exact .inr (.inl h)
        · rcases ih h with h | h <;> tauto

theorem Cells.mem_erase {m : Cells} {a : Nat} {c : Nat × Word} (h : c ∈ Cells.erase m a) : c ∈ m := by
  induction m with
  | nil => simp [Cells.erase] at h
  | cons d m ih =>
    obtain ⟨k, x⟩ := d
    rw [Cells.erase] at h
    split at h
    · exact List.mem_cons_of_mem _ (ih h)
    · simp only [List.mem_cons] at h ⊢
      exact h.imp id ih

theorem Cells.rising_insert {m : Cells} (hm : Cells.rising m) {a : Nat} (ha : a < 2 ^ 32) (v : Word) :
    Cells.rising (Cells.insert m a v) := by
  refine ⟨?_, fun c hc => (Cells.mem_insert hc).elim (fun h => by simpa [h] using ha) (hm.2 c)⟩
  replace hm := hm.1
  induction m with
  | nil => simp [Cells.insert]
  | cons d m ih =>
    obtain ⟨k, x⟩ := d
    have ⟨hk, hm'⟩ := List.pairwise_cons.1 hm
    rw [Cells.insert]
    split
    · rename_i hak
      refine List.pairwise_cons.2 ⟨fun c hc => ?_, hm⟩
      rcases List.mem_cons.1 hc with rfl | hc
      · exact hak
      · exact Nat.lt_trans hak (hk c hc)
    · split
      · rename_i _ hak
        exact List.pairwise_cons.2 ⟨fun c hc => by simpa [hak] using hk c hc, hm'⟩
      · rename_i hlt hne
        refine List.pairwise_cons.2 ⟨fun c hc => ?_, ih hm'⟩
        rcases Cells.mem_insert hc with rfl | hc
        · simp only; omega
        · exact hk c hc

theorem Cells.rising_erase {m : Cells} (hm : Cells.rising m) (a : Nat) : Cells.rising (Cells.erase m a) := by
  refine ⟨?_, fun c hc => hm.2 c (Cells.mem_erase hc)⟩
  replace hm := hm.1
  induction m with
  | nil => simp [Cells.erase]
  | cons d m ih =>
    obtain ⟨k, x⟩ := d
    have ⟨hk, hm'⟩ := List.pairwise_cons.1 hm
    rw [Cells.erase]
    split
    · exact ih hm'
    · exact List.pairwise_cons.2 ⟨fun c hc => hk c (Cells.mem_erase hc), ih hm'⟩

@[simp] theorem Memory.read_nil (a : Word) : Memory.read [] a = unlistedWord := rfl

theorem Memory.read_write (m : Cells) (a v b : Word) :
    Memory.read (Memory.write m a v) b = if b = a then v else Memory.read m b := by
  unfold Memory.write Memory.read
  split
  · rw [Cells.lookup_erase]; simp only [BitVec.toNat_inj]; split <;> simp_all
  · rw [Cells.lookup_insert]; simp only [BitVec.toNat_inj]; split <;> simp_all

/-- Every write keeps the canonical form. -/
theorem Memory.wf_write {m : Cells} (hm : Memory.wf m) (a v : Word) : Memory.wf (Memory.write m a v) := by
  unfold Memory.write
  split
  · exact ⟨Cells.rising_erase hm.1 _, fun c hc => hm.2 c (Cells.mem_erase hc)⟩
  · rename_i hv
    exact ⟨Cells.rising_insert hm.1 a.isLt v,
      fun c hc => (Cells.mem_insert hc).elim (fun h => by simpa [h] using hv) (hm.2 c)⟩

theorem Memory.wf_reset : Memory.wf State.reset.dmem := by decide

theorem InstrStore.wf_reset : InstrStore.wf State.reset.imem := by decide

/-- Loading the fetched word keeps the instruction store's form. -/
theorem InstrStore.wf_withFetchWord {s : State} (h : InstrStore.wf s.imem) (nbits w : Nat) :
    InstrStore.wf (s.withFetchWord nbits w).imem :=
  Cells.rising_insert h s.pc.isLt _

/-! ### Reads through the state updates -/

variable (s : State) (r : RegIdx) (a v : Word)

@[simp] theorem State.readMem_writeReg : (s.writeReg r v).readMem a = s.readMem a := rfl
@[simp] theorem State.readMem_advance : (s.advance v).readMem a = s.readMem a := rfl

theorem State.readMem_writeMem (b : Word) :
    (s.writeMem a v).readMem b = if b = a then v else s.readMem b := Memory.read_write ..

end Sys2Proof.Machine
end

