-- ==== Sys2Proof/Laws/Operands.lean ====
section
/-! SUPPORT. The extenders in arithmetic (40_datapath.md R121). -/

namespace Sys2Proof.Machine

/-- The exact sums of R190, R170 and R210: adding the extended immediate is the integer sum, narrowed. -/
theorem add_sext32 (a : Word) (imm : Imm) : a + sext32 imm = BitVec.ofInt 32 (a.toInt + imm.toInt) := by
  rw [BitVec.ofInt_add, BitVec.ofInt_toInt]
  congr 1

/-- LUI's shift discards the extension (R84). -/
theorem sext32_shift (imm : Imm) : sext32 imm <<< 16 = imm.setWidth 32 <<< 16 := by
  ext i hi
  interval_cases i <;> simp [sext32, BitVec.getElem_signExtend]

end Sys2Proof.Machine
end

