-- ==== Sys2Proof/Laws/PerInstr.lean ====
section
/-! SUPPORT. Per instruction: the word the encoder writes belongs to the instruction's own row of the opcode table, and to
no other row (30_encoding.md R92, opcode_table.json). -/

namespace Sys2Proof.Laws.RowMatch

/-- The encoded word is covered by a table row exactly when the row is the instruction's own. -/
def Statement (i : Instr) : Prop :=
  ∀ row ∈ opcodeTable, row.covers (encode i) = true ↔ row.tag = i.tag

/-- In fields. -/
theorem statement_of_fields (i : Instr)
    (h : ∀ row ∈ opcodeTable, (opcodeField (encode i) = opcodeField row.pattern ∧
      (opcodeField (encode i) = 0 → functField (encode i) = functField row.pattern)) ↔ row.tag = i.tag) :
    Statement i := fun row hr => (covers_iff_fields _ row hr).trans (h row hr)

/-- An R-type word: opcode 0 and its funct. -/
theorem statement_encR (i : Instr) (rd rs rt : RegIdx) (funct : BitVec 6) (he : encode i = encR rd rs rt funct)
    (h : ∀ row ∈ opcodeTable, (0 = opcodeField row.pattern ∧ funct = functField row.pattern) ↔ row.tag = i.tag) :
    Statement i :=
  statement_of_fields i fun row hr => by
    rw [he, opcodeField_encR, functField_encR, ← h row hr]; simp

/-- An I-type word: its opcode, which is not 0. -/
theorem statement_encI (i : Instr) (op : BitVec 6) (rt rs : RegIdx) (imm : Imm) (he : encode i = encI op rt rs imm)
    (h0 : op ≠ 0) (h : ∀ row ∈ opcodeTable, op = opcodeField row.pattern ↔ row.tag = i.tag) : Statement i :=
  statement_of_fields i fun row hr => by
    rw [he, opcodeField_encI, ← h row hr]
    exact ⟨fun hf => hf.1, fun hf => ⟨hf, fun hz => absurd hz h0⟩⟩

theorem add (rd rs rt : RegIdx) : Statement (.add rd rs rt) :=
  statement_encR _ rd rs rt _ rfl (by simp only [Instr.tag]; decide)

theorem and (rd rs rt : RegIdx) : Statement (.and rd rs rt) :=
  statement_encR _ rd rs rt _ rfl (by simp only [Instr.tag]; decide)

theorem slt (rd rs rt : RegIdx) : Statement (.slt rd rs rt) :=
  statement_encR _ rd rs rt _ rfl (by simp only [Instr.tag]; decide)

theorem addi (rt rs : RegIdx) (imm : Imm) : Statement (.addi rt rs imm) :=
  statement_encI _ _ rt rs imm rfl (by decide) (by simp only [Instr.tag]; decide)

theorem lui (rt : RegIdx) (imm : Imm) : Statement (.lui rt imm) :=
  statement_encI _ _ rt 0 imm rfl (by decide) (by simp only [Instr.tag]; decide)

theorem ori (rt rs : RegIdx) (imm : Imm) : Statement (.ori rt rs imm) :=
  statement_encI _ _ rt rs imm rfl (by decide) (by simp only [Instr.tag]; decide)

theorem lw (rt : RegIdx) (imm : Imm) (rs : RegIdx) : Statement (.lw rt imm rs) :=
  statement_encI _ _ rt rs imm rfl (by decide) (by simp only [Instr.tag]; decide)

theorem sw (rt : RegIdx) (imm : Imm) (rs : RegIdx) : Statement (.sw rt imm rs) :=
  statement_encI _ _ rt rs imm rfl (by decide) (by simp only [Instr.tag]; decide)

theorem beq (rs rt : RegIdx) (imm : Imm) : Statement (.beq rs rt imm) :=
  statement_encI _ _ rt rs imm rfl (by decide) (by simp only [Instr.tag]; decide)

end Sys2Proof.Laws.RowMatch
end

