-- ==== Sys2Proof/Laws/Regs.lean ====
section
/-! SUPPORT. The register file: register 0 reads 0 and discards writes (10_state.md R22, 40_datapath.md R117, R118). -/

namespace Sys2Proof.Machine

variable (s : State) (r q : RegIdx) (a v : Word)

@[simp] theorem State.readReg_zero : s.readReg 0#5 = 0#32 := rfl

theorem State.readReg_of_ne {r : RegIdx} (h : r ≠ 0) : s.readReg r = s.regs[r.toNat]'r.isLt := if_neg h

@[simp] theorem State.readReg_advance : (s.advance v).readReg r = s.readReg r := rfl

@[simp] theorem State.readReg_writeMem : (s.writeMem a v).readReg r = s.readReg r := rfl

theorem State.readReg_writeReg :
    (s.writeReg r v).readReg q = if q = r ∧ r ≠ 0 then v else s.readReg q := by
  by_cases hq : q = 0
  · subst hq
    rw [if_neg fun h => h.2 h.1.symm]; rfl
  · by_cases hr : r = 0
    · simp [State.readReg, hr]
    · simp only [State.readReg, hq, hr, if_false, State.writeReg_regs, Vector.getElem_set, BitVec.toNat_inj,
        eq_comm (a := r), ne_eq, not_false_eq_true, and_true]

/-- Lane 0 is never written. -/
theorem State.lane_zero_writeReg : (s.writeReg r v).regs[0] = s.regs[0] := by
  by_cases hr : r = 0
  · simp [hr]
  · have : r.toNat ≠ 0 := fun h => hr (BitVec.toNat_inj.1 h)
    simp only [State.writeReg_regs, hr, if_false, Vector.getElem_set, this]

end Sys2Proof.Machine
end

