-- ==== Sys2Proof/Laws/Step.lean ====
section
/-! SUPPORT. What each shared operation can answer, and the one inversion lemma of `step`. -/

namespace Sys2Proof.Machine

/-- An access inside the capacity answers `act`, and nothing else does. -/
theorem State.access_eq_next {s t act : State} {a : Word} :
    s.access a act = .next t ↔ s.inCapacity a = true ∧ t = act := by
  unfold State.access
  cases s.inCapacity a <;> simp [eq_comm]

theorem State.access_eq_fault {s act : State} {a : Word} {f : Fault} :
    s.access a act = .fault f ↔ s.inCapacity a = false ∧ f = .beyondCapacity a := by
  unfold State.access
  cases s.inCapacity a <;> simp [eq_comm]

theorem State.access_ne_refused {s act : State} {a : Word} {r : Refusal} : s.access a act ≠ .refused r := by
  unfold State.access; split <;> simp

theorem State.inCapacity_eq_false {s : State} {a : Word} :
    s.inCapacity a = false ↔ ∃ c, s.params.dmemCapacity = some c ∧ c ≤ a.toNat := by
  unfold State.inCapacity; split <;> simp_all

theorem execUnknown_eq_next {s t : State} :
    execUnknown s = .next t ↔ s.params.unknownPolicy = .nop ∧ t = s.advance 0 := by
  unfold execUnknown
  cases s.params.unknownPolicy <;> simp [eq_comm]

/-- What a fetch can be: a loaded word, the fill word, or stuck. -/
theorem State.fetch_eq_none {s : State} :
    s.fetch = none ↔ Cells.lookup s.imem s.pc.toNat = none ∧ s.params.imemUnloaded = .stuck := by
  unfold State.fetch; split
  · simp_all
  · split <;> simp_all

/-- The fetch depends on the pc, the instruction store and the parameters alone. -/
theorem State.fetch_congr {s t : State} (hpc : t.pc = s.pc) (hi : t.imem = s.imem) (hp : t.params = s.params) :
    t.fetch = s.fetch := by
  simp only [State.fetch, hpc, hi, hp]

/-- A step that answers a next state runs the current instruction, or an UNKNOWN word under `nop`. -/
theorem step_cases {s t : State} (h : step s = .next t) :
    (∃ w i, s.fetch = some w ∧ decode w = .ok i ∧ Safety.current s = some i ∧ exec i s = .next t) ∨
    (∃ w e, s.fetch = some w ∧ decode w = .error e ∧ Safety.current s = none ∧
      s.params.unknownPolicy = .nop ∧ t = s.advance 0) := by
  cases hw : s.fetch with
  | none => simp only [step, hw, reduceCtorEq] at h
  | some w =>
    cases hd : decode w with
    | ok i =>
      simp only [step, hw, hd] at h
      exact .inl ⟨w, i, rfl, hd, by simp only [Safety.current, hw, hd], h⟩
    | error e =>
      simp only [step, hw, hd] at h
      exact .inr ⟨w, e, rfl, hd, by simp only [Safety.current, hw, hd], execUnknown_eq_next.1 h⟩

end Sys2Proof.Machine

namespace Sys2Proof.Safety

open Sys2Proof.Machine

variable {k : Nat} {s t : State}

theorem runsTo_zero : runsTo 0 s t ↔ s = t := by
  simp only [runsTo, Host.Core.run]
  exact ⟨fun h => Host.Outcome.next.inj h, fun h => congrArg _ h⟩

theorem runsTo_succ : runsTo (k + 1) s t ↔ ∃ u, step s = .next u ∧ runsTo k u t := by
  have hstep : Sys2Proof.core.step s = step s := rfl
  simp only [runsTo, Host.Core.run, hstep]
  cases step s <;> simp

end Sys2Proof.Safety
end

