-- ==== Sys2Proof/Machine/Assembly.lean ====
section
/-! DEFINITION. The assembly text of an instruction (30_encoding.md R91). It carries no behaviour (D17). -/

namespace Sys2Proof.Machine

/-- The mnemonics of R86 and R91. -/
def mnemonic : Instr → String
  | .add _ _ _ => "ADD"
  | .and _ _ _ => "AND"
  | .slt _ _ _ => "SLT"
  | .addi _ _ _ => "ADDI"
  | .lui _ _ => "LUI"
  | .ori _ _ _ => "ORI"
  | .lw _ _ _ => "LW"
  | .sw _ _ _ => "SW"
  | .beq _ _ _ => "BEQ"

/-- `r<n>`. -/
def regText (r : RegIdx) : String := "r" ++ Nat.repr r.toNat

/-- A sign-extended field in signed decimal. -/
def signedText (imm : Imm) : String :=
  if imm.msb then "-" ++ Nat.repr (2 ^ 16 - imm.toNat) else Nat.repr imm.toNat

/-- `#<value>` of a sign-extended field. -/
def signedImmText (imm : Imm) : String := "#" ++ signedText imm

/-- `#<value>` as the unsigned decimal of the 16-bit field: ORI's, which is zero-extended, and LUI's (see `operandTexts`). -/
def unsignedImmText (imm : Imm) : String := "#" ++ Nat.repr imm.toNat

/-- `<offset>(r<n>)`. -/
def memText (imm : Imm) (rs : RegIdx) : String := signedText imm ++ "(" ++ regText rs ++ ")"

/-- The operands in the orders of R91, immediates in decimal. DESIGN CHOICE (log entry 26; safe): LUI's immediate is written
unsigned. R91 writes decimal 'signed for sign-extended fields' and R84 sign-extends LUI's, but R91 lists `#-1` for ADDI, LW,
SW and BEQ only. -/
def operandTexts : Instr → List String
  | .add rd rs rt | .and rd rs rt | .slt rd rs rt => [regText rd, regText rs, regText rt]
  | .addi rt rs imm => [regText rt, regText rs, signedImmText imm]
  | .lui rt imm => [regText rt, unsignedImmText imm]
  | .ori rt rs imm => [regText rt, regText rs, unsignedImmText imm]
  | .lw rt imm rs | .sw rt imm rs => [regText rt, memText imm rs]
  | .beq rs rt imm => [regText rs, regText rt, signedImmText imm]

/-- The assembly line of an instruction. -/
def assembly (i : Instr) : String := mnemonic i ++ " " ++ String.intercalate ", " (operandTexts i)

end Sys2Proof.Machine
end

