-- ==== Sys2Proof/Tests/Slice0.lean ====
section
/-! SUPPORT. Tests from the spec's vectors (95_test_vectors.md), the smoke test of well-formedness, and a named witness for
the hypotheses of each statement. -/

namespace Sys2Proof.Tests

open Sys2Proof.Machine Sys2Proof.Safety

/-- A small state: `word` at the pc, the given registers and data words, the rest as at reset. -/
def small (pc : Word) (word : Nat) (regs : List (RegIdx × Word)) (mem : List (Word × Word)) : State :=
  State.withFetchWord
    { regs.foldl (fun s x => s.writeReg x.1 x.2) (mem.foldl (fun s x => s.writeMem x.1 x.2) State.reset) with pc := pc }
    32 word

/-- The next state of one step, if there is one. -/
def after (s : State) : Option State :=
  match step s with
  | .next t => some t
  | .fault _ => none
  | .refused _ => none

/-- The fault of one step, if there is one. -/
def stopOf (s : State) : Option Fault :=
  match step s with
  | .next _ => none
  | .fault f => some f
  | .refused _ => none

/-- What a state shows of one register. -/
def shows (r : RegIdx) (s : State) : Option Word := (after s).map fun t => t.readReg r

/-- What a state shows of one data word. -/
def showsMem (a : Word) (s : State) : Option Word := (after s).map fun t => t.readMem a

/-- The pc after a step. -/
def showsPc (s : State) : Option Word := (after s).map fun t => t.pc

theorem step_of_after {s t : State} (h : after s = some t) : step s = .next t := by
  unfold after at h
  split at h
  · next t' ht => cases h; exact ht
  · cases h
  · cases h

theorem step_of_stopOf {s : State} {f : Fault} (h : stopOf s = some f) : step s = .fault f := by
  unfold stopOf at h
  split at h
  · cases h
  · next f' hf => cases h; exact hf
  · cases h

/-! ### Well-formedness: instructions have no ill-formed term; a program may be too long -/

theorem test_wellFormed_program : wellFormedProgram [0x20010005, 0x20020003] = true := by decide

theorem test_illFormed_program (program : List Word) (h : program.length = 2 ^ 32 + 1) :
    wellFormedProgram program = false :=
  decide_eq_false (by omega)

theorem test_illFormed_program_exists : ∃ program : List Word, program.length = 2 ^ 32 + 1 :=
  ⟨List.replicate _ 0, List.length_replicate⟩

theorem test_wellFormed_instr : (Instr.sw 31 0xFFFF 31).wellFormed = true := by decide

/-! ### Decoding: words written from the field tables R82 and R83, opcode rs rt rd (ignored) funct, opcode rs rt imm -/

theorem test_decode_add : decode 0b000000_00001_00010_00011_00000_100000 = .ok (.add 3 1 2) := by decide
theorem test_decode_and : decode 0b000000_10001_01010_11111_11111_100100 = .ok (.and 31 17 10) := by decide
theorem test_decode_slt : decode 0b000000_01010_01001_01100_00000_101010 = .ok (.slt 12 10 9) := by decide
theorem test_decode_addi : decode 0b001000_00001_00010_1000000000000000 = .ok (.addi 2 1 0x8000) := by decide
theorem test_decode_lui : decode 0b001111_00111_00001_1111111111111111 = .ok (.lui 1 0xFFFF) := by decide
theorem test_decode_ori : decode 0b001101_00001_00010_0101011001111000 = .ok (.ori 2 1 0x5678) := by decide
theorem test_decode_lw : decode 0b100011_00001_00010_1111111111111111 = .ok (.lw 2 0xFFFF 1) := by decide
theorem test_decode_sw : decode 0b101011_00001_00010_0000000000001000 = .ok (.sw 2 8 1) := by decide
theorem test_decode_beq : decode 0b000100_00001_00010_0000000000000011 = .ok (.beq 1 2 3) := by decide
theorem test_decode_bne_unlisted : decode 0x1400FFFF = .error (.unlisted 0x05 0x3f) := by decide
theorem test_decodeTableWord : decodeTableWord 32 0xAC010000 = some (.sw 1 0 0) := by decide

/-! ### One step on the vectors of L2.3 to L2.7 -/

theorem test_add_wraps : shows 3 (small 0 0x00221820 [(1, 0x7FFFFFFF), (2, 1)] []) = some 0x80000000 := by decide
theorem test_add_to_zero : shows 0 (small 0 0x00220020 [(1, 5), (2, 3)] []) = some 0 := by decide
theorem test_and : shows 3 (small 0 0x00221824 [(1, 0xF0F0FF00), (2, 0x0FF0F0F0)] []) = some 0x00F0F000 := by decide
theorem test_slt_signed : shows 3 (small 0 0x0022182A [(1, 0xFFFFFFFF), (2, 1)] []) = some 1 := by decide
theorem test_slt_extremes : shows 3 (small 0 0x0022182A [(1, 0x7FFFFFFF), (2, 0x80000000)] []) = some 0 := by decide
theorem test_addi_negative : shows 2 (small 0 0x20228000 [] []) = some 0xFFFF8000 := by decide
theorem test_addi_same_register : shows 1 (small 0 0x2021FFFF [(1, 0)] []) = some 0xFFFFFFFF := by decide
theorem test_lui_ignores_rs : shows 1 (small 0 0x3CE1FFFF [(7, 0x12345678)] []) = some 0xFFFF0000 := by decide
theorem test_ori_zero_extends : shows 2 (small 0 0x34228000 [(1, 0xFFFF0000)] []) = some 0xFFFF8000 := by decide
theorem test_lw_wraps : shows 2 (small 0 0x8C220002 [(1, 0xFFFFFFFF)] [(1, 0xAB)]) = some 0xAB := by decide
theorem test_lw_old_base : shows 1 (small 0 0x8C210004 [(1, 0x10)] [(0x14, 0x99)]) = some 0x99 := by decide
theorem test_sw_same_register : showsMem 0x1E (small 0 0xAC63FFFE [(3, 0x20)] []) = some 0x20 := by decide
theorem test_sw_zero : showsMem 108 (small 0 0xAC200008 [(1, 100)] [(108, 5)]) = some 0 := by decide
theorem test_beq_taken : showsPc (small 10 0x10220003 [(1, 7), (2, 7)] []) = some 14 := by decide
theorem test_beq_wraps : showsPc (small 0xFFFFFFF0 0x10007FFF [] []) = some 0x00007FF0 := by decide
theorem test_unknown_word : showsPc (small 0xFFFFFFFF 0xFFFFFFFF [] []) = some 0 := by decide

/-- L2.8: a row of the control ROM, in the codes of R87. -/
theorem test_rom_ori :
    controlRom (classifyWord 0x34215678) = ⟨false, false, true, .zeroExt, false, false, .or⟩ ∧
    AluSrc.zeroExt.code = 2 ∧ AluOp.or.code = 2 ∧ AluOp.luiShift.code = 4 ∧ AluOp.eqTest.code = 5 := by decide

/-- The spec's own spellings (R91, L2.5). -/
theorem test_assembly :
    assembly (.addi 2 1 0xFFFF) = "ADDI r2, r1, #-1" ∧ assembly (.sw 3 0xFFFE 3) = "SW r3, -2(r3)" := by decide

/-! ### Witnesses: states and operands that meet the hypotheses of the statements -/

/-- ADDI at pc 0. -/
def addiState : State := small 0 0x20010005 [] []

/-- SW r1, 0(r0), then ADDI r3, r0, #1, then LW r2, 0(r0). -/
def storeLoad : State :=
  State.launch [0xAC010000, 0x20030001, 0x8C020000] (Vector.replicate 31 10) [] Params.spec

/-- The state two steps after `storeLoad`, at the LW. -/
def atLoad : State := ((after storeLoad).bind after).getD State.reset

theorem witness_EncodeOfDecodeClearsIgnoredBits : decode 0x00221FE0 = .ok (.add 3 1 2) := by decide

theorem witness_ClassificationIsTheOpcodeTable :
    classifyWord 0x10220003 = .beq ∧ classifyWord 0x08000005 = .unknown := by decide

theorem witness_IgnoredBitsChangeNothing :
    classifyWord 0x00221820 ≠ .unknown ∧
    (0x00221FE0 : Word) &&& usedBits (classifyWord 0x00221820) = 0x00221820 &&& usedBits (classifyWord 0x00221820) := by
  decide

theorem witness_StepRunsTheDecodedInstruction :
    addiState.fetch = some 0x20010005 ∧ decode 0x20010005 = .ok (.addi 1 0 5) := by decide

theorem witness_UnlistedWordOnlyAdvancesThePc :
    (small 7 0 [] []).fetch = some 0 ∧ classifyWord 0 = .unknown ∧ (small 7 0 [] []).params.unknownPolicy = .nop := by
  decide

/-- `addiState` with other parameters. -/
def withParams (s : State) (p : Params) : State := { s with params := p }

theorem witness_stop_unloadedFetch :
    Cells.lookup State.reset.imem 0 = none ∧ State.reset.params.imemUnloaded = .stuck ∧
    stopOf State.reset = some (.unloadedFetch 0) := by decide

/-- The capacity's edge: address c - 1 is inside, address c is not. -/
theorem witness_stop_beyondCapacity :
    stopOf (withParams (small 0 0xAC010008 [] []) { Params.spec with dmemCapacity := some 8 }) = some (.beyondCapacity 8) ∧
    stopOf (withParams (small 0 0x8C010007 [] []) { Params.spec with dmemCapacity := some 8 }) = none ∧
    dataAddress (.lw 1 7 0) State.reset = some 7 := by decide

theorem witness_stop_unknownWord :
    stopOf (withParams (small 7 0 [] []) { Params.spec with unknownPolicy := .fault }) = some (.unknownWord 7) := by decide

theorem witness_EveryFetchedWordRetires :
    addiState.fetch = some 0x20010005 ∧ addiState.params.unknownPolicy = .nop ∧ addiState.params.dmemCapacity = none := by
  decide

theorem witness_CoreNeverHalts : Unstoppable (withParams State.reset { Params.spec with imemUnloaded := .word 0 }) :=
  ⟨rfl, ⟨0, rfl⟩, rfl⟩

theorem witness_EqtestResultReachesNoState : classifyWord 0x1000FFFF = .beq := by decide

theorem witness_NoRuleReadsTheClockEdge_next : ∃ t, step addiState = .next t := ⟨_, rfl⟩

theorem witness_NoRuleReadsTheClockEdge_fault : step State.reset = .fault (.unloadedFetch 0) := step_of_stopOf (by decide)

/-- Two different states that look alike: lane 0 and the listing of a zero word differ. -/
theorem witness_NoHiddenStateIsObservable :
    LooksLike addiState { addiState with dmem := [(5, 0)], regs := addiState.regs.set 0 9 } ∧
    addiState ≠ { addiState with dmem := [(5, 0)], regs := addiState.regs.set 0 9 } := by
  refine ⟨⟨rfl, fun r => ?_, fun a => ?_, rfl, rfl⟩, by decide⟩
  · revert r; decide
  · change Memory.read [(5, 0)] a = Memory.read [] a
    unfold Memory.read
    rw [Cells.lookup_cons]
    split <;> rfl

theorem witness_RegisterWritePort :
    wordCycleWith 0 0x20010005 addiState = .next ((signalsWith 0 0x20010005 addiState).commit addiState) ∧
    (signalsWith 0 0x20010005 addiState).control.regWrite = true ∧ (signalsWith 0 0x20010005 addiState).wa = 1 :=
  ⟨rfl, by decide, by decide⟩

theorem witness_DataMemoryWritePort :
    wordCycleWith 0 0xAC010000 storeLoad = .next ((signalsWith 0 0xAC010000 storeLoad).commit storeLoad) ∧
    (signalsWith 0 0xAC010000 storeLoad).control.memWrite = true ∧
    (signalsWith 0 0xAC010000 storeLoad).aluOut.result = 0 :=
  ⟨rfl, by decide, by decide⟩

theorem witness_NextPcOfEveryStep_taken :
    current (small 10 0x10220003 [(1, 7), (2, 7)] []) = some (.beq 1 2 3) ∧
    (after (small 10 0x10220003 [(1, 7), (2, 7)] [])).isSome = true := by decide

theorem witness_NextPcOfEveryStep_not_taken :
    showsPc (small 10 0x10220003 [(1, 7), (2, 8)] []) = some 11 := by decide

theorem witness_AtMostOneWritePerCycle :
    (after addiState).isSome = true ∧ shows 1 addiState = some 5 ∧ addiState.readReg 1 = 0 := by decide

theorem witness_AtMostOneWritePerCycle_store :
    showsMem 0 storeLoad = some 10 ∧ storeLoad.readMem 0 = 0 := by decide

theorem witness_RegistersChangeOnlyAtTheDestination :
    shows 1 addiState ≠ some (addiState.readReg 1) ∧ decode 0x20010005 = .ok (.addi 1 0 5) ∧
    destination (.addi 1 0 5) = some 1 := by decide

theorem witness_add_row : (0x00221FE0 : Word) &&& 0xFC00003F = 0x00000020 := by decide
theorem witness_and_row : (0x00221824 : Word) &&& 0xFC00003F = 0x00000024 := by decide
theorem witness_slt_row : (0x0022182A : Word) &&& 0xFC00003F = 0x0000002A := by decide
theorem witness_addi_row : (0x2001002A : Word) &&& 0xFC000000 = 0x20000000 := by decide
theorem witness_lui_row : (0x3CE1FFFF : Word) &&& 0xFC000000 = 0x3C000000 := by decide
theorem witness_ori_row : (0x34215678 : Word) &&& 0xFC000000 = 0x34000000 := by decide
theorem witness_lw_row : (0x8C22FFFF : Word) &&& 0xFC000000 = 0x8C000000 := by decide
theorem witness_sw_row : (0xAC63FFFE : Word) &&& 0xFC000000 = 0xAC000000 := by decide
theorem witness_beq_row : (0x1000FFFF : Word) &&& 0xFC000000 = 0x10000000 := by decide

theorem witness_LwLoadsTheWord :
    State.reset.inCapacity (State.reset.effectiveAddress 0 0xFFFF) = true ∧
    State.reset.effectiveAddress 0 0xFFFF = 0xFFFFFFFF ∧ State.reset.params.dmemCapacity = none := by decide

theorem witness_SwStoresTheWord :
    State.reset.inCapacity (State.reset.effectiveAddress 0 0x8000) = true ∧
    State.reset.effectiveAddress 0 0x8000 = 0xFFFF8000 := by decide

theorem witness_ExecChangesNothingElse_alu : ∃ t, exec (.add 3 1 2) addiState = .next t := ⟨_, rfl⟩

theorem witness_ExecChangesNothingElse_store :
    (∃ t, exec (.sw 1 0 0) storeLoad = .next t) ∧ storeAddress (.sw 1 0 0) storeLoad = some 0 := ⟨⟨_, rfl⟩, by decide⟩

theorem witness_SelfLoopParksTheCore :
    current (small 5 0x1000FFFF [] []) = some (.beq 0 0 0xFFFF) ∧
    current (small 5 0x1022FFFF [(1, 7), (2, 7)] []) = some (.beq 1 2 0xFFFF) ∧
    (small 5 0x1022FFFF [(1, 7), (2, 7)] []).readReg 1 = (small 5 0x1022FFFF [(1, 7), (2, 7)] []).readReg 2 := by decide

theorem witness_LoadReturnsTheLatestStore :
    ∃ t u, current storeLoad = some (.sw 1 0 0) ∧ step storeLoad = .next t ∧
      noStoreTo (storeLoad.effectiveAddress 0 0) 1 t ∧ runsTo 1 t u ∧ current u = some (.lw 2 0 0) ∧
      u.effectiveAddress 0 0 = storeLoad.effectiveAddress 0 0 := by
  refine ⟨(after storeLoad).getD State.reset, atLoad, by decide, step_of_after (by decide), ⟨fun i hi => ?_, fun _ _ => trivial⟩,
    runsTo_succ.2 ⟨atLoad, step_of_after (by decide), runsTo_zero.2 rfl⟩, by decide, by decide⟩
  rw [show current ((after storeLoad).getD State.reset) = some (.addi 3 0 1) by decide] at hi
  cases hi
  decide

/-- SW r1, 5(r0), then LW r1, 4(r0), launched over a data memory with 6 at address 4: the store next to the loaded word is
no store to it. -/
def launchLoad : State := State.launch [0xAC010005, 0x8C010004] (Vector.replicate 31 0) [(4, 6)] Params.spec

theorem witness_LoadReturnsTheLatestStore_launch :
    ∃ u v, runsTo 1 launchLoad u ∧ current u = some (.lw 1 4 0) ∧ u.effectiveAddress 0 4 = 4 ∧
      noStoreTo (u.effectiveAddress 0 4) 1 launchLoad ∧ step u = .next v := by
  refine ⟨(after launchLoad).getD State.reset, _, runsTo_succ.2 ⟨_, step_of_after (by decide), runsTo_zero.2 rfl⟩,
    by decide, by decide, ⟨fun i hi => ?_, fun _ _ => trivial⟩, rfl⟩
  rw [show current launchLoad = some (.sw 1 5 0) by decide] at hi
  cases hi
  decide

theorem witness_RunsNeverWriteTheInstructionStore : ∃ t, runsTo 1 storeLoad t :=
  ⟨_, runsTo_succ.2 ⟨_, rfl, runsTo_zero.2 rfl⟩⟩

theorem witness_RunsNeverWriteTheInstructionStore_loop :
    (after (small 5 0x1000FFFF [] [])).map (fun t => t.pc) = some (small 5 0x1000FFFF [] []).pc := by decide

theorem witness_LaunchMeetsTheInvariant :
    wellFormedProgram [0x20010005] = true ∧ Memory.wf [(3, 5), (0xFFFFFFFF, 1)] := by decide

theorem witness_StepKeepsTheInvariant : StateInv storeLoad ∧ ∃ t, step storeLoad = .next t :=
  ⟨⟨by decide, by decide, by decide⟩, _, rfl⟩

theorem witness_TraceShowsTheCycle :
    storeLoad.fetch = some 0xAC010000 ∧ (after storeLoad).isSome = true ∧ decode 0xAC010000 = .ok (.sw 1 0 0) ∧
    dataAddress (.sw 1 0 0) storeLoad = some 0 := by decide

theorem witness_TraceShowsTheCycle_load :
    atLoad.fetch = some 0x8C020000 ∧ (after atLoad).isSome = true ∧ decode 0x8C020000 = .ok (.lw 2 0 0) ∧
    destination (.lw 2 0 0) = some 2 := by decide

end Sys2Proof.Tests
end

/-! ## The state: what an instruction's effect is, and what it keeps (10_state.md)

One inversion lemma for `exec`, the congruence of every state update under inspection, and the canonical listing of a
data memory's contents; the obligations of the family are assembled from them. -/

/-! ### The canonical listing of a data memory (R29, D5) -/

namespace Sys2Proof.Machine

/-- In a rising listing the word looked up at an address is the one listed there. -/
theorem Cells.lookup_eq_some_iff_mem {m : Cells} (hm : Cells.rising m) {a : Nat} {v : Word} :
    Cells.lookup m a = some v ↔ (a, v) ∈ m := by
  replace hm := hm.1
  induction m with
  | nil => simp
  | cons c m ih =>
    obtain ⟨k, x⟩ := c
    have ⟨hk, hm'⟩ := List.pairwise_cons.1 hm
    rw [Cells.lookup_cons, List.mem_cons]
    by_cases hka : k = a
    · have hnot : (a, v) ∉ m := fun hv => absurd hka (hk _ hv).ne
      simp [hka, hnot, eq_comm]
    · simp [hka, Ne.symm hka, ih hm']

/-- What is listed in a canonical memory is what it reads as anything but the unlisted word. -/
theorem Memory.mem_iff_read {m : Cells} (hm : Memory.wf m) (c : Nat × Word) :
    c ∈ m ↔ c.1 < 2 ^ 32 ∧ c.2 ≠ unlistedWord ∧ Memory.read m (BitVec.ofNat 32 c.1) = c.2 := by
  obtain ⟨a, v⟩ := c
  have hlisted := Cells.lookup_eq_some_iff_mem hm.1 (a := a) (v := v)
  constructor
  · intro hc
    have ha : a < 2 ^ 32 := hm.1.2 _ hc
    refine ⟨ha, hm.2 _ hc, ?_⟩
    simp only [Memory.read, BitVec.toNat_ofNat, Nat.mod_eq_of_lt ha, hlisted.2 hc, Option.getD_some]
  · rintro ⟨ha, hv, hread⟩
    simp only [Memory.read, BitVec.toNat_ofNat, Nat.mod_eq_of_lt ha] at hread
    refine hlisted.1 ?_
    cases hl : Cells.lookup m a with
    | none => exact absurd (by simpa only [hl, Option.getD_none] using hread.symm) hv
    | some x => simpa [hl] using hread

/-- Canonical memories of equal contents are equal. -/
theorem Memory.eq_of_read_eq {m m' : Cells} (hm : Memory.wf m) (hm' : Memory.wf m')
    (h : ∀ a, Memory.read m a = Memory.read m' a) : m = m' := by
  have : Std.Asymm fun x y : Nat × Word => x.1 < y.1 := ⟨fun _ _ => Nat.lt_asymm⟩
  refine hm.1.1.eq_of_mem_iff hm'.1.1 fun c => ?_
  rw [Memory.mem_iff_read hm, Memory.mem_iff_read hm', h]

/-- Writing the words of `f` one address after another keeps the form and leaves them readable. -/
theorem Memory.exists_wf_read_below (f : Word → Word) (n : Nat) (hn : n ≤ 2 ^ 32) :
    ∃ m, Memory.wf m ∧ ∀ a, Memory.read m a = if a.toNat < n then f a else unlistedWord := by
  induction n with
  | zero => exact ⟨[], Memory.wf_reset, fun a => by simp⟩
  | succ n ih =>
    obtain ⟨m, hm, hread⟩ := ih (by omega)
    refine ⟨Memory.write m (BitVec.ofNat 32 n) (f (BitVec.ofNat 32 n)), Memory.wf_write hm _ _, fun a => ?_⟩
    have hlast : a = BitVec.ofNat 32 n ↔ a.toNat = n := by
      rw [← BitVec.toNat_inj, BitVec.toNat_ofNat, Nat.mod_eq_of_lt hn]
    rw [Memory.read_write, hread]
    by_cases ha : a = BitVec.ofNat 32 n
    · rw [if_pos ha, if_pos (by have := hlast.1 ha; omega), ha]
    · have hne : a.toNat ≠ n := fun h => ha (hlast.2 h)
      simp only [if_neg ha, Nat.lt_succ_iff_lt_or_eq, hne, or_false]

/-- Settles O37: the words of `f` written over all addresses, and a canonical memory is determined by its reads. -/
theorem everyDmemInitIsOneCanonicalMemory : Obligations.EveryDmemInitIsOneCanonicalMemory := by
  intro f
  obtain ⟨m, hm, hread⟩ := Memory.exists_wf_read_below f (2 ^ 32) le_rfl
  have hread (a : Word) : Memory.read m a = f a := by rw [hread, if_pos a.isLt]
  refine ⟨m, ⟨hm, hread⟩, fun m' ⟨hm', hread'⟩ => ?_⟩
  exact Memory.eq_of_read_eq hm' hm fun a => (hread' a).trans (hread a).symm

end Sys2Proof.Machine

namespace Sys2Proof.Safety

open Sys2Proof.Machine

variable {s s' t : State} {i : Instr}

/-! ### What an instruction can do (R24, R56, R130) -/

/-- The inversion lemma of `exec`, for frames and invariants: which update an instruction makes when it retires. The value
that goes to a destination is left to the instruction's own rule. -/
theorem exec_cases (h : exec i s = .next t) :
    (∃ d v, destination i = some d ∧ storeAddress i s = none ∧ t = (s.writeReg d v).advance 0) ∨
    (∃ rt imm rs, i = .sw rt imm rs ∧
      t = (s.writeMem (s.effectiveAddress rs imm) (s.readReg rt)).advance 0) ∨
    (∃ rs rt imm, i = .beq rs rt imm ∧
      t = s.advance (branchOffset (equalTaken (s.readReg rs) (s.readReg rt)) (sext32 imm))) := by
  cases i with
  | add | and | slt | addi | lui | ori => cases h; exact .inl ⟨_, _, rfl, rfl, rfl⟩
  | lw rt imm rs =>
    obtain ⟨-, rfl⟩ := State.access_eq_next.1 h
    exact .inl ⟨_, _, rfl, rfl, rfl⟩
  | sw rt imm rs => exact .inr (.inl ⟨rt, imm, rs, rfl, (State.access_eq_next.1 h).2⟩)
  | beq rs rt imm => cases h; exact .inr (.inr ⟨rs, rt, imm, rfl, rfl⟩)

/-! ### The invariant (R22, R56, R63) -/

theorem StateInv.writeReg (h : StateInv s) (r : RegIdx) (v : Word) : StateInv (s.writeReg r v) where
  dmem_wf := h.dmem_wf
  imem_wf := h.imem_wf
  lane_zero := (State.lane_zero_writeReg s r v).trans h.lane_zero

theorem StateInv.writeMem (h : StateInv s) (a v : Word) : StateInv (s.writeMem a v) where
  dmem_wf := Memory.wf_write h.dmem_wf a v
  imem_wf := h.imem_wf
  lane_zero := h.lane_zero

theorem StateInv.advance (h : StateInv s) (offset : Word) : StateInv (s.advance offset) where
  dmem_wf := h.dmem_wf
  imem_wf := h.imem_wf
  lane_zero := h.lane_zero

theorem StateInv.exec (hs : StateInv s) (h : exec i s = .next t) : StateInv t := by
  obtain ⟨d, v, -, -, rfl⟩ | ⟨rt, imm, rs, -, rfl⟩ | ⟨rs, rt, imm, -, rfl⟩ := exec_cases h
  · exact (hs.writeReg d v).advance 0
  · exact (hs.writeMem _ _).advance 0
  · exact hs.advance _

/-- Settles O42: each update that `exec` or an UNKNOWN word can make keeps the invariant. -/
theorem stepKeepsTheInvariant : Obligations.StepKeepsTheInvariant := by
  intro s t hs h
  obtain ⟨w, i, -, -, -, hexec⟩ | ⟨w, e, -, -, -, -, rfl⟩ := step_cases h
  · exact hs.exec hexec
  · exact hs.advance 0

/-! ### The frame of an instruction (R24, R56, R131) -/

/-- A register that is no destination, register 0 included, reads as before. -/
theorem exec_readReg_of_not_destination (h : exec i s = .next t) {r : RegIdx}
    (hr : r = 0 ∨ destination i ≠ some r) : t.readReg r = s.readReg r := by
  obtain ⟨d, v, hd, -, rfl⟩ | ⟨rt, imm, rs, -, rfl⟩ | ⟨rs, rt, imm, -, rfl⟩ := exec_cases h
  · have hother : ¬(r = d ∧ d ≠ 0) := by
      rintro ⟨rfl, h0⟩
      exact hr.elim h0 (fun hne => hne hd)
    rw [State.readReg_advance, State.readReg_writeReg, if_neg hother]
  · rw [State.readReg_advance, State.readReg_writeMem]
  · rw [State.readReg_advance]

/-- A data word that is not at the address stored to reads as before. -/
theorem exec_readMem_of_not_storeAddress (h : exec i s = .next t) {a : Word}
    (ha : storeAddress i s ≠ some a) : t.readMem a = s.readMem a := by
  obtain ⟨d, v, -, -, rfl⟩ | ⟨rt, imm, rs, rfl, rfl⟩ | ⟨rs, rt, imm, -, rfl⟩ := exec_cases h
  · rw [State.readMem_advance, State.readMem_writeReg]
  · have hother : a ≠ s.effectiveAddress rs imm := fun he => ha (congrArg some he.symm)
    rw [State.readMem_advance, State.readMem_writeMem, if_neg hother]
  · rw [State.readMem_advance]

/-- No instruction writes the instruction store or a parameter. -/
theorem exec_sameProgram (h : exec i s = .next t) : SameProgram s t := by
  obtain ⟨d, v, -, -, rfl⟩ | ⟨rt, imm, rs, -, rfl⟩ | ⟨rs, rt, imm, -, rfl⟩ := exec_cases h <;> exact ⟨rfl, rfl⟩

/-- Settles O33: one frame lemma each for the registers, the data memory and the program. -/
theorem execChangesNothingElse : Obligations.ExecChangesNothingElse := by
  intro i s t h
  exact ⟨fun _ => exec_readReg_of_not_destination h, fun _ => exec_readMem_of_not_storeAddress h, exec_sameProgram h⟩

/-! ### The register a step writes (R24, R86) -/

/-- The destination of a listed word in the control ROM's terms. -/
theorem destination_of_decode {w : Word} (h : decode w = .ok i) : destination i =
    if (controlRom i.tag).regWrite = true then
      some (if (controlRom i.tag).regDst = true then rdField w else rtField w)
    else none := by
  unfold decode at h
  split at h <;> cases h <;> rfl

/-- Settles O22: the ROM's row of each listed word, and the frame of the instruction read backwards. -/
theorem registersChangeOnlyAtTheDestination : Obligations.RegistersChangeOnlyAtTheDestination := by
  refine ⟨fun w i => destination_of_decode, fun s t h r hr => ?_⟩
  obtain ⟨w, i, -, -, hcurrent, hexec⟩ | ⟨w, e, -, -, -, -, rfl⟩ := step_cases h
  · have hdest := mt (exec_readReg_of_not_destination hexec) hr
    rw [not_or, not_not] at hdest
    exact ⟨hdest.1, i, hcurrent, hdest.2⟩
  · exact absurd (State.readReg_advance s r 0) hr

/-! ### Inspection decides the next state (R34, R132, R136) -/

namespace LooksLike

theorem pc (h : LooksLike s s') : s'.pc = s.pc := h.1

theorem readReg (h : LooksLike s s') (r : RegIdx) : s'.readReg r = s.readReg r := h.2.1 r

theorem readMem (h : LooksLike s s') (a : Word) : s'.readMem a = s.readMem a := h.2.2.1 a

theorem params (h : LooksLike s s') : s'.params = s.params := h.2.2.2.2

theorem fetch (h : LooksLike s s') : s'.fetch = s.fetch := State.fetch_congr h.pc h.2.2.2.1 h.params

theorem effectiveAddress (h : LooksLike s s') (rs : RegIdx) (imm : Imm) :
    s'.effectiveAddress rs imm = s.effectiveAddress rs imm := by
  simp only [State.effectiveAddress, h.readReg]

theorem inCapacity (h : LooksLike s s') (a : Word) : s'.inCapacity a = s.inCapacity a := by
  simp only [State.inCapacity, h.params]

theorem advance (h : LooksLike s s') (offset : Word) : LooksLike (s.advance offset) (s'.advance offset) := by
  obtain ⟨hpc, hregs, hmem, hprogram⟩ := h
  exact ⟨by simp only [State.advance_pc, hpc], hregs, hmem, hprogram⟩

theorem writeReg (h : LooksLike s s') (r : RegIdx) (v : Word) : LooksLike (s.writeReg r v) (s'.writeReg r v) := by
  obtain ⟨hpc, hregs, hmem, hprogram⟩ := h
  exact ⟨hpc, fun q => by simp only [State.readReg_writeReg, hregs q], hmem, hprogram⟩

theorem writeMem (h : LooksLike s s') (a v : Word) : LooksLike (s.writeMem a v) (s'.writeMem a v) := by
  obtain ⟨hpc, hregs, hmem, hprogram⟩ := h
  exact ⟨hpc, hregs, fun b => by simp only [State.readMem_writeMem, hmem b], hprogram⟩

end LooksLike

/-- Two outcomes that no inspection tells apart: next states that look alike, or the same stop. -/
inductive OutcomesAlike : Host.Outcome State Fault Refusal → Host.Outcome State Fault Refusal → Prop where
  | next {t t' : State} (h : LooksLike t t') : OutcomesAlike (.next t) (.next t')
  | fault (f : Fault) : OutcomesAlike (.fault f) (.fault f)
  | refused (r : Refusal) : OutcomesAlike (.refused r) (.refused r)

/-- An access answers alike where its next states are alike. -/
theorem LooksLike.access (h : LooksLike s s') (a : Word) {act act' : State} (hact : LooksLike act act') :
    OutcomesAlike (s.access a act) (s'.access a act') := by
  simp only [State.access, h.inCapacity]
  split
  · exact .next hact
  · exact .fault _

/-- Every instruction reads the state through inspection alone. -/
theorem LooksLike.exec (h : LooksLike s s') (i : Instr) : OutcomesAlike (exec i s) (exec i s') := by
  cases i with
  | add | and | slt | addi | lui | ori =>
    simp only [Machine.exec, execAdd, execAnd, execSlt, execAddi, execLui, execOri, h.readReg]
    exact .next ((h.writeReg _ _).advance 0)
  | lw rt imm rs =>
    simp only [Machine.exec, execLw, h.effectiveAddress, h.readMem]
    exact h.access _ ((h.writeReg _ _).advance 0)
  | sw rt imm rs =>
    simp only [Machine.exec, execSw, h.effectiveAddress, h.readReg]
    exact h.access _ ((h.writeMem _ _).advance 0)
  | beq rs rt imm =>
    simp only [Machine.exec, execBeq, h.readReg]
    exact .next (h.advance _)

theorem LooksLike.execUnknown (h : LooksLike s s') : OutcomesAlike (execUnknown s) (execUnknown s') := by
  simp only [Machine.execUnknown, h.params, h.pc]
  split
  · exact .next (h.advance 0)
  · exact .fault _

theorem LooksLike.step (h : LooksLike s s') : OutcomesAlike (step s) (step s') := by
  simp only [Machine.step, h.fetch, h.pc]
  split
  · exact .fault _
  · split
    · exact h.exec _
    · exact h.execUnknown

/-- Settles O15: the two clauses are the two ways in which alike outcomes arise. -/
theorem noHiddenStateIsObservable : Obligations.NoHiddenStateIsObservable := by
  intro s s' h
  have hstep := h.step
  constructor
  · intro t ht
    rw [ht] at hstep
    generalize step s' = o at hstep ⊢
    cases hstep with
    | next hlike => exact ⟨_, rfl, hlike⟩
  · intro f hf
    rw [hf] at hstep
    generalize step s' = o at hstep ⊢
    cases hstep
    rfl

end Sys2Proof.Safety

/-! ## The memories: who is stuck, what a load returns, and what no run writes (20_memory.md)

An instruction's stop is its access's; a step has a frame at the words not stored to and keeps the program, and both carry
over to runs by induction on their length. The obligations of the family are assembled from these. -/

namespace Sys2Proof.Safety

open Sys2Proof.Machine

variable {s t : State} {i : Instr} {k : Nat}

/-! ### Stops of an instruction (R57, D12) -/

theorem access_eq_fault_iff_beyond_capacity {act : State} {a : Word} {f : Fault} : s.access a act = .fault f ↔
    ∃ c, s.params.dmemCapacity = some c ∧ c ≤ a.toNat ∧ f = .beyondCapacity a := by
  rw [State.access_eq_fault, State.inCapacity_eq_false]
  exact ⟨fun ⟨⟨c, hc, ha⟩, hf⟩ => ⟨c, hc, ha, hf⟩, fun ⟨c, hc, ha, hf⟩ => ⟨⟨c, hc, ha⟩, hf⟩⟩

/-- An instruction that makes an access is stuck where the access is. -/
theorem exec_eq_fault_of_dataAddress {a : Word} {f : Fault} (ha : dataAddress i s = some a) : exec i s = .fault f ↔
    ∃ c, s.params.dmemCapacity = some c ∧ c ≤ a.toNat ∧ f = .beyondCapacity a := by
  cases i with
  | add | and | slt | addi | lui | ori | beq => cases ha
  | lw | sw => cases ha; exact access_eq_fault_iff_beyond_capacity

/-- An instruction that makes no access always retires. -/
theorem exec_eq_next_of_no_dataAddress (ha : dataAddress i s = none) : ∃ t, exec i s = .next t := by
  cases i with
  | add | and | slt | addi | lui | ori | beq => exact ⟨_, rfl⟩
  | lw | sw => cases ha

/-- Settles O9: an instruction either makes an access, whose capacity check is its only stop, or retires. -/
theorem onlyAccessesBeyondCapacityAreStuck : Obligations.OnlyAccessesBeyondCapacityAreStuck := by
  intro i s f
  cases ha : dataAddress i s with
  | none =>
    obtain ⟨t, ht⟩ := exec_eq_next_of_no_dataAddress ha
    simp [ht]
  | some a => simp [exec_eq_fault_of_dataAddress ha]

/-! ### What a step keeps (R56, R63) -/

theorem step_of_current (h : current s = some i) : step s = exec i s := by
  cases hw : s.fetch with
  | none => simp only [current, hw, reduceCtorEq] at h
  | some w =>
    cases hd : decode w with
    | ok j =>
      simp only [current, hw, hd, Option.some.injEq] at h
      simp only [step, hw, hd, h]
    | error e => simp only [current, hw, hd, reduceCtorEq] at h

theorem step_sameProgram (h : step s = .next t) : SameProgram s t := by
  obtain ⟨w, i, -, -, -, hexec⟩ | ⟨w, e, -, -, -, -, rfl⟩ := step_cases h
  · exact exec_sameProgram hexec
  · exact ⟨rfl, rfl⟩

theorem step_readMem_of_not_storeAddress (h : step s = .next t) {a : Word}
    (ha : ∀ i, current s = some i → storeAddress i s ≠ some a) : t.readMem a = s.readMem a := by
  obtain ⟨w, i, -, -, hcurrent, hexec⟩ | ⟨w, e, -, -, -, -, rfl⟩ := step_cases h
  · exact exec_readMem_of_not_storeAddress hexec (ha i hcurrent)
  · exact State.readMem_advance s a 0

/-! ### What a run keeps (R60, R63, R275) -/

theorem runsTo_sameProgram (h : runsTo k s t) : SameProgram s t := by
  induction k generalizing s with
  | zero => cases runsTo_zero.1 h; exact ⟨rfl, rfl⟩
  | succ k ih =>
    obtain ⟨u, hstep, hrun⟩ := runsTo_succ.1 h
    obtain ⟨himem, hparams⟩ := step_sameProgram hstep
    obtain ⟨himem', hparams'⟩ := ih hrun
    exact ⟨himem'.trans himem, hparams'.trans hparams⟩

theorem runsTo_readMem_of_noStoreTo {a : Word} (h : runsTo k s t) (ha : noStoreTo a k s) :
    t.readMem a = s.readMem a := by
  induction k generalizing s with
  | zero => rw [runsTo_zero.1 h]
  | succ k ih =>
    obtain ⟨u, hstep, hrun⟩ := runsTo_succ.1 h
    obtain ⟨hhead, htail⟩ := ha
    calc t.readMem a = u.readMem a := ih hrun (htail u hstep)
      _ = s.readMem a := step_readMem_of_not_storeAddress hstep hhead

/-- Settles O36: a fetch reads the pc and the program alone, and a run keeps the program. -/
theorem runsNeverWriteTheInstructionStore : Obligations.RunsNeverWriteTheInstructionStore := by
  intro k s t h
  obtain ⟨himem, hparams⟩ := runsTo_sameProgram h
  exact ⟨⟨himem, hparams⟩, fun hpc => State.fetch_congr hpc himem hparams⟩

/-! ### A store and a later load (R55, R56, R60) -/

theorem inCapacity_of_sameProgram (h : SameProgram s t) (a : Word) : t.inCapacity a = s.inCapacity a := by
  simp only [State.inCapacity, h.2]

variable {rt rs : RegIdx} {imm : Imm}

theorem step_lw_eq_next (hcurrent : current s = some (.lw rt imm rs)) : step s = .next t ↔
    s.inCapacity (s.effectiveAddress rs imm) = true ∧
      t = (s.writeReg rt (s.readMem (s.effectiveAddress rs imm))).advance 0 := by
  rw [step_of_current hcurrent]
  exact State.access_eq_next

theorem step_sw_eq_next (hcurrent : current s = some (.sw rt imm rs)) : step s = .next t ↔
    s.inCapacity (s.effectiveAddress rs imm) = true ∧
      t = (s.writeMem (s.effectiveAddress rs imm) (s.readReg rt)).advance 0 := by
  rw [step_of_current hcurrent]
  exact State.access_eq_next

/-- A step of LW shows the word it read in its target, or 0 where the target is register 0 (R118). -/
theorem readReg_of_step_lw (hcurrent : current s = some (.lw rt imm rs)) (h : step s = .next t) :
    t.readReg rt = if rt = 0 then 0 else s.readMem (s.effectiveAddress rs imm) := by
  obtain ⟨-, rfl⟩ := (step_lw_eq_next hcurrent).1 h
  rw [State.readReg_advance, State.readReg_writeReg]
  by_cases hrt : rt = 0
  · subst hrt; rfl
  · rw [if_pos ⟨rfl, hrt⟩, if_neg hrt]

/-- A step of SW leaves the stored word at the address it stores to. -/
theorem readMem_of_step_sw (hcurrent : current s = some (.sw rt imm rs)) (h : step s = .next t) :
    t.readMem (s.effectiveAddress rs imm) = s.readReg rt := by
  obtain ⟨-, rfl⟩ := (step_sw_eq_next hcurrent).1 h
  rw [State.readMem_advance, State.readMem_writeMem, if_pos rfl]

/-- Settles O35: the run between keeps the word at the address, and the capacity that admitted the store admits the load. -/
theorem loadReturnsTheLatestStore : Obligations.LoadReturnsTheLatestStore := by
  constructor
  · intro s t u k rt rs imm rt' rs' imm' hsw hstore hno hrun hlw haddr
    have hmem : u.readMem (u.effectiveAddress rs' imm') = s.readReg rt := by
      rw [haddr, runsTo_readMem_of_noStoreTo hrun hno, readMem_of_step_sw hsw hstore]
    have hcap : u.inCapacity (u.effectiveAddress rs' imm') = true := by
      rw [haddr, inCapacity_of_sameProgram (runsTo_sameProgram hrun),
        inCapacity_of_sameProgram (step_sameProgram hstore)]
      exact ((step_sw_eq_next hsw).1 hstore).1
    have hload := (step_lw_eq_next hlw).2 ⟨hcap, rfl⟩
    exact ⟨_, hload, by rw [readReg_of_step_lw hlw hload, hmem]⟩
  · intro program rfInit dmemInit params u v k rt rs imm hrun hlw hno hload
    rw [readReg_of_step_lw hlw hload, runsTo_readMem_of_noStoreTo hrun hno]
    rfl

end Sys2Proof.Safety

/-! ## The encoding: words, tags and instructions (30_encoding.md)

Encoding and decoding are inverse on the bits an instruction reads, a tag is a row of the opcode table, and the datapath's
cycle over a listed word is the meaning of the instruction it decodes to. The obligations of the family follow from these
three. -/

namespace Sys2Proof

variable {w w' : Word} {i : Instr}

/-! ### The spec's own words (95_test_vectors.md L2.1 to L2.6) -/

/-- Settles O1: the decoder, run on each of the twelve words. -/
theorem specWordsDecodeAsListed : Obligations.SpecWordsDecodeAsListed := by
  unfold Obligations.SpecWordsDecodeAsListed
  decide

/-! ### Decoding an encoded instruction (R81, R85, R92) -/

@[simp] theorem classifyWord_encode (i : Instr) : classifyWord (encode i) = i.tag := by
  cases i with
  | add => exact classifyWord_eq_add.2 ⟨opcodeField_encR .., functField_encR ..⟩
  | and => exact classifyWord_eq_and.2 ⟨opcodeField_encR .., functField_encR ..⟩
  | slt => exact classifyWord_eq_slt.2 ⟨opcodeField_encR .., functField_encR ..⟩
  | addi => exact classifyWord_eq_addi.2 (opcodeField_encI ..)
  | lui => exact classifyWord_eq_lui.2 (opcodeField_encI ..)
  | ori => exact classifyWord_eq_ori.2 (opcodeField_encI ..)
  | lw => exact classifyWord_eq_lw.2 (opcodeField_encI ..)
  | sw => exact classifyWord_eq_sw.2 (opcodeField_encI ..)
  | beq => exact classifyWord_eq_beq.2 (opcodeField_encI ..)

@[simp] theorem decode_encode (i : Instr) : decode (encode i) = .ok i := by
  rw [decode, classifyWord_encode]
  cases i with
  | add | and | slt => simp only [Instr.tag, encode, rdField_encR, rsField_encR, rtField_encR]
  | addi | lui | ori | lw | sw | beq => simp only [Instr.tag, encode, rsField_encI, rtField_encI, immField_encI]

/-- Settles O2: the tag of an encoded instruction is its own, and every field it reads is the operand written there. -/
theorem decodeOfEncodeIsTheInstruction : Obligations.DecodeOfEncodeIsTheInstruction :=
  fun i _ => decode_encode i

theorem encode_injective : Function.Injective encode := fun i j h => by
  simpa using congrArg decode h

/-! ### Encoding a decoded word (R88, R92) -/

theorem encR_of_fields {funct : BitVec 6} (h : opcodeField w = 0 ∧ functField w = funct) :
    encR (rdField w) (rsField w) (rtField w) funct = w &&& 0xFFFFF83F := by
  rw [← h.2, encR_fields h.1]

theorem encI_of_fields {op : BitVec 6} (h : opcodeField w = op) :
    encI op (rtField w) (rsField w) (immField w) = w &&& 0xFFFFFFFF := by
  rw [← h, encI_fields]
  exact BitVec.and_allOnes.symm

theorem encode_of_decode (h : decode w = .ok i) : encode i = w &&& usedBits i.tag := by
  unfold decode at h
  split at h <;> cases h
  case h_1 hadd => exact encR_of_fields (classifyWord_eq_add.1 hadd)
  case h_2 hand => exact encR_of_fields (classifyWord_eq_and.1 hand)
  case h_3 hslt => exact encR_of_fields (classifyWord_eq_slt.1 hslt)
  case h_4 haddi => exact encI_of_fields (classifyWord_eq_addi.1 haddi)
  case h_5 hlui => rw [encode, ← classifyWord_eq_lui.1 hlui]; exact encI_fields_no_rs w
  case h_6 hori => exact encI_of_fields (classifyWord_eq_ori.1 hori)
  case h_7 hlw => exact encI_of_fields (classifyWord_eq_lw.1 hlw)
  case h_8 hsw => exact encI_of_fields (classifyWord_eq_sw.1 hsw)
  case h_9 hbeq => exact encI_of_fields (classifyWord_eq_beq.1 hbeq)

/-- Settles O3: each word is put together again from the fields its tag reads. -/
theorem encodeOfDecodeClearsIgnoredBits : Obligations.EncodeOfDecodeClearsIgnoredBits :=
  fun _ _ => encode_of_decode

/-! ### Tags and rows of the opcode table (R85, R90) -/

/-- A row of the opcode table covers exactly the words of its tag. -/
theorem covers_iff_classifyWord (w : Word) :
    ∀ row ∈ opcodeTable, row.covers w = true ↔ classifyWord w = row.tag := by
  have rRow {funct : BitVec 6} : opcodeField w = 0 ∧ (opcodeField w = 0 → functField w = funct) ↔
      opcodeField w = 0 ∧ functField w = funct := and_congr_right forall_prop_of_true
  have iRow {op : BitVec 6} {q : Prop} (h0 : op ≠ 0) :
      opcodeField w = op ∧ (opcodeField w = 0 → q) ↔ opcodeField w = op :=
    and_iff_left_of_imp fun h hz => absurd (h.symm.trans hz) h0
  have hfields := covers_iff_fields w
  simp only [opcodeTable, List.forall_mem_cons] at hfields ⊢
  obtain ⟨hadd, hand, hslt, haddi, hlui, hori, hlw, hsw, hbeq, -⟩ := hfields
  exact ⟨hadd.trans (rRow.trans classifyWord_eq_add.symm),
    hand.trans (rRow.trans classifyWord_eq_and.symm),
    hslt.trans (rRow.trans classifyWord_eq_slt.symm),
    haddi.trans ((iRow (by decide)).trans classifyWord_eq_addi.symm),
    hlui.trans ((iRow (by decide)).trans classifyWord_eq_lui.symm),
    hori.trans ((iRow (by decide)).trans classifyWord_eq_ori.symm),
    hlw.trans ((iRow (by decide)).trans classifyWord_eq_lw.symm),
    hsw.trans ((iRow (by decide)).trans classifyWord_eq_sw.symm),
    hbeq.trans ((iRow (by decide)).trans classifyWord_eq_beq.symm),
    fun _ h => nomatch h⟩

theorem exists_row_of_tag {t : Tag} (ht : t ≠ .unknown) : ∃ row ∈ opcodeTable, row.tag = t := by
  cases t with
  | unknown => exact absurd rfl ht
  | add | and | slt | addi | lui | ori | lw | sw | beq => decide

theorem tag_ne_unknown_of_row : ∀ row ∈ opcodeTable, row.tag ≠ .unknown := by decide

/-- Settles O4: a row covers exactly the words of its tag, every listed tag has a row, and UNKNOWN has none. -/
theorem classificationIsTheOpcodeTable : Obligations.ClassificationIsTheOpcodeTable := by
  intro w
  have hcovers := covers_iff_classifyWord w
  refine ⟨fun t ht => ⟨?_, ?_⟩, ?_, ?_⟩
  · rintro rfl
    obtain ⟨row, hrow, htag⟩ := exists_row_of_tag ht
    exact ⟨row, hrow, htag, (hcovers row hrow).2 htag.symm⟩
  · rintro ⟨row, hrow, rfl, hw⟩
    exact (hcovers row hrow).1 hw
  · intro hunknown row hrow
    rw [← Bool.not_eq_true, hcovers row hrow, hunknown]
    exact (tag_ne_unknown_of_row row hrow).symm
  · intro hnone
    by_contra hlisted
    obtain ⟨row, hrow, htag⟩ := exists_row_of_tag hlisted
    exact absurd ((hcovers row hrow).2 htag.symm) (by simp [hnone row hrow])

/-! ### The ignored bits (R88) -/

theorem mask_and_usedBits : ∀ row ∈ opcodeTable, usedBits row.tag &&& row.mask = row.mask := by decide

/-- A word that agrees with a listed word on the bits its tag reads has the same tag. -/
theorem classifyWord_eq_of_usedBits (hw : classifyWord w ≠ .unknown)
    (h : w' &&& usedBits (classifyWord w) = w &&& usedBits (classifyWord w)) : classifyWord w' = classifyWord w := by
  obtain ⟨row, hrow, htag⟩ := exists_row_of_tag hw
  have hmask : w' &&& row.mask = w &&& row.mask := by
    rw [← mask_and_usedBits row hrow, htag, ← BitVec.and_assoc, h, BitVec.and_assoc]
  have hcovers : row.covers w' = row.covers w := by simp only [OpcodeRow.covers, hmask]
  have hw' : row.covers w' = true := hcovers.trans ((covers_iff_classifyWord w row hrow).2 htag.symm)
  exact ((covers_iff_classifyWord w' row hrow).1 hw').trans htag

/-- A word is listed exactly when it decodes to an instruction. -/
theorem listed_iff_decode_eq_ok : classifyWord w ≠ .unknown ↔ ∃ i, decode w = .ok i := by
  rw [Ne, ← decode_eq_error]
  cases decode w <;> simp

/-- The words of a listed word's instruction are those that agree with it on the bits its tag reads. -/
theorem decode_eq_iff_usedBits (hw : classifyWord w ≠ .unknown) : decode w' = decode w ↔
    w' &&& usedBits (classifyWord w) = w &&& usedBits (classifyWord w) := by
  obtain ⟨i, hi⟩ := listed_iff_decode_eq_ok.1 hw
  have hencode : encode i = w &&& usedBits (classifyWord w) := tag_of_decode hi ▸ encode_of_decode hi
  constructor
  · intro h
    rw [← hencode, encode_of_decode (h.trans hi), tag_of_decode hi]
  · intro h
    have htag := classifyWord_eq_of_usedBits hw h
    obtain ⟨j, hj⟩ := listed_iff_decode_eq_ok.1 (htag.trans_ne hw)
    have hencode' : encode j = encode i := by
      rw [encode_of_decode hj, tag_of_decode hj, htag, h, hencode]
    rw [hi, hj, encode_injective hencode']

end Sys2Proof

namespace Sys2Proof.Machine

/-! ### The datapath's cycle over a listed word (R86, R111) -/

variable {draw w : Word} {s : State}

theorem signalsWith_control : (signalsWith draw w s).control = controlRom (classifyWord w) := rfl

/-- A listed word whose bundle touches the data memory accesses it at the ALU result. -/
theorem wordCycleWith_of_access (hw : classifyWord w ≠ .unknown)
    (h : ((controlRom (classifyWord w)).memToReg || (controlRom (classifyWord w)).memWrite) = true) :
    wordCycleWith draw w s =
      s.access (signalsWith draw w s).aluOut.result ((signalsWith draw w s).commit s) := by
  simp only [wordCycleWith, Signals.beyondCapacity, State.access, signalsWith_control, hw, h, false_and, if_false,
    Bool.true_and]
  cases s.inCapacity (signalsWith draw w s).aluOut.result <;> rfl

/-- A listed word whose bundle does not touch the data memory always commits. -/
theorem wordCycleWith_of_no_access (hw : classifyWord w ≠ .unknown)
    (h : ((controlRom (classifyWord w)).memToReg || (controlRom (classifyWord w)).memWrite) = false) :
    wordCycleWith draw w s = .next ((signalsWith draw w s).commit s) := by
  simp only [wordCycleWith, Signals.beyondCapacity, signalsWith_control, hw, h, false_and, if_false, Bool.false_and,
    Bool.false_eq_true]

/-- The datapath's cycle over a listed word is the meaning of its instruction, whatever the ALU shows under EQTEST: the
case split is on whether the word's bundle accesses the data memory. -/
theorem wordCycleWith_of_decode {i : Instr} (h : decode w = .ok i) : wordCycleWith draw w s = exec i s := by
  have hw := listed_iff_decode_eq_ok.2 ⟨i, h⟩
  unfold decode at h
  split at h <;> cases h
  -- LW and SW
  case h_7 htag | h_8 htag =>
    rw [wordCycleWith_of_access hw (by rw [htag]; rfl), signalsWith, ← classifyWord, htag]
    rfl
  -- the forms that make no access
  case h_1 htag | h_2 htag | h_3 htag | h_4 htag | h_5 htag | h_6 htag | h_9 htag =>
    rw [wordCycleWith_of_no_access hw (by rw [htag]; rfl), signalsWith, ← classifyWord, htag]
    rfl

/-- Settles O5: the bits a tag reads determine the instruction and are determined by it, and the datapath's cycle is that
instruction's meaning. -/
theorem ignoredBitsChangeNothing : Obligations.IgnoredBitsChangeNothing := by
  intro w w' hw
  have hiff := decode_eq_iff_usedBits (w' := w') hw
  refine ⟨hiff, fun h draw s => ?_⟩
  obtain ⟨i, hi⟩ := listed_iff_decode_eq_ok.1 hw
  rw [wordCycleWith_of_decode hi, wordCycleWith_of_decode ((hiff.2 h).trans hi)]

end Sys2Proof.Machine

/-! ## The datapath: the cycle, its write ports and its trace (40_datapath.md)

The cycle over any word, UNKNOWN included, is the meaning that `step` runs, whatever the ALU shows under EQTEST; and a cycle
that answers a next state answers its commit. What a step writes and what the trace shows are read off the commit; where the
pc goes and when a step retires, off the per-instruction rules. -/

namespace Sys2Proof.Machine

open Sys2Proof.Safety

variable {draw w : Word} {s t : State} {i : Instr}

/-! ### The extenders (R121) -/

/-- Settles O17: both extensions are a 16-bit word in front of the immediate, and the sign is its bit 15. -/
theorem extendersCopyTheSignOrPadZeros : Obligations.ExtendersCopyTheSignOrPadZeros := by
  intro imm
  have hsign : imm.msb = imm.getLsbD 15 := BitVec.msb_eq_getLsbD_last imm
  constructor
  · rw [sext32, BitVec.signExtend_eq_append_of_le (by decide), hsign]
    rfl
  · exact BitVec.setWidth_eq_append (by decide)

/-! ### The branch offset and Branch (R115, R124, D11) -/

theorem branch_iff_eqTest (tag : Tag) : (controlRom tag).branch = true ↔ (controlRom tag).aluOp = .eqTest := by
  cases tag <;> decide

/-- The ALU raises an offset under EQTEST alone. -/
theorem alu_brOffset_of_ne_eqTest {op : AluOp} (h : op ≠ .eqTest) (a b simm : Word) :
    (alu draw op a b simm).brOffset = 0 := by
  simp only [alu, h, decide_false, Bool.false_and, branchOffset, Bool.false_eq_true, if_false]

theorem brOffset_of_not_branch (h : (controlRom (classifyWord w)).branch ≠ true) :
    (signalsWith draw w s).aluOut.brOffset = 0 :=
  alu_brOffset_of_ne_eqTest (mt (branch_iff_eqTest _).2 h) ..

/-- Settles O18: Branch is set in the row of EQTEST alone, and under any other ALUOp the offset is 0. -/
theorem gatingTheOffsetByBranchChangesNothing : Obligations.GatingTheOffsetByBranchChangesNothing := by
  refine ⟨fun w => branch_iff_eqTest _, fun draw w s => ?_⟩
  split
  · rfl
  · next h => exact brOffset_of_not_branch h

/-! ### The step is the cycle (R111, R125, R135) -/

/-- The cycle over an UNKNOWN word: its all-zero bundle touches no memory and commits the pc alone. -/
theorem wordCycleWith_of_unknown (h : classifyWord w = .unknown) : wordCycleWith draw w s = execUnknown s := by
  have hcontrol : (signalsWith draw w s).control = controlRom .unknown := by rw [signalsWith_control, h]
  have hoffset : (signalsWith draw w s).aluOut.brOffset = 0 := brOffset_of_not_branch (by rw [h]; decide)
  have hcommit : (signalsWith draw w s).commit s = s.advance 0 := by
    simp only [Signals.commit, hcontrol, hoffset, controlRom, Bool.false_eq_true, if_false]
  have hinside : (signalsWith draw w s).beyondCapacity s = false := by
    simp only [Signals.beyondCapacity, hcontrol, controlRom, Bool.or_self, Bool.false_and]
  simp only [wordCycleWith, execUnknown, h, hcommit, hinside, true_and, Bool.false_eq_true, if_false]
  cases s.params.unknownPolicy <;> rfl

theorem wordCycleWith_eq_step (h : s.fetch = some w) : wordCycleWith draw w s = step s := by
  cases hd : decode w with
  | ok i => simp only [step, h, hd, wordCycleWith_of_decode hd]
  | error e => simp only [step, h, hd, wordCycleWith_of_unknown (decode_eq_error.1 ⟨e, hd⟩)]

theorem cycleWith_eq_step : cycleWith draw s = step s := by
  cases h : s.fetch with
  | none => simp only [cycleWith, step, h]
  | some w => simp only [cycleWith, h, wordCycleWith_eq_step h]

/-- Settles O12: the cycle over the fetched word is the step, for the ALU result that the model leaves free too. -/
theorem stepIsTheDatapathCycle : Obligations.StepIsTheDatapathCycle := by
  intro s
  cases h : s.fetch with
  | none => simp only [cycle, step, h]
  | some w => simp only [cycle, h, wordCycleWith_eq_step h]

/-- Settles O13: the ALU passes the drawn value on for BEQ, and the cycles under any two values are the step. -/
theorem eqtestResultReachesNoState : Obligations.EqtestResultReachesNoState := by
  refine ⟨fun draw w s hbeq => ?_, fun draw draw' s => cycleWith_eq_step.trans cycleWith_eq_step.symm⟩
  rw [signalsWith, ← classifyWord, hbeq]
  rfl

/-- Settles O6: a step runs what the fetched word decodes to, and a fetch after a load at the pc finds the loaded word. -/
theorem stepRunsTheDecodedInstruction : Obligations.StepRunsTheDecodedInstruction := by
  refine ⟨fun s w i hw hd => step_of_current (by simp only [current, hw, hd]), fun s w => ?_⟩
  simp only [State.fetch, State.withFetchWord_imem, State.withFetchWord_pc, Cells.lookup_insert, if_true,
    Nat.mod_eq_of_lt w.isLt, BitVec.ofNat_toNat, BitVec.setWidth_eq]

/-! ### Every word retires (R132, R240, R242) -/

theorem inCapacity_of_unbounded (h : s.params.dmemCapacity = none) (a : Word) : s.inCapacity a = true := by
  simp only [State.inCapacity, h]

theorem exec_eq_next_of_unbounded (h : s.params.dmemCapacity = none) (i : Instr) : ∃ t, exec i s = .next t := by
  cases i with
  | add | and | slt | addi | lui | ori | beq => exact ⟨_, rfl⟩
  | lw | sw => exact ⟨_, State.access_eq_next.2 ⟨inCapacity_of_unbounded h _, rfl⟩⟩

/-- Settles O10: a listed word's instruction retires where no capacity is set, and an UNKNOWN word does under `nop`. -/
theorem everyFetchedWordRetires : Obligations.EveryFetchedWordRetires := by
  intro s w hw hnop hcap
  cases hd : decode w with
  | ok i => simpa only [step, hw, hd] using exec_eq_next_of_unbounded hcap i
  | error e => exact ⟨s.advance 0, by simpa only [step, hw, hd] using execUnknown_eq_next.2 ⟨hnop, rfl⟩⟩

/-! ### The clock edge (R110, D7) -/

/-- An outcome with `f` applied to its next state, where it has one. -/
def mapNext (f : State → State) : Host.Outcome State Fault Refusal → Host.Outcome State Fault Refusal
  | .next s => .next (f s)
  | .fault r => .fault r
  | .refused r => .refused r

section ClockEdge

variable (e : ClkEdge)

theorem access_withClkEdge (a : Word) (act : State) :
    (withClkEdge e s).access a (withClkEdge e act) = mapNext (withClkEdge e) (s.access a act) := by
  have hcap : (withClkEdge e s).inCapacity a = s.inCapacity a := rfl
  simp only [State.access, hcap]
  split <;> rfl

theorem exec_withClkEdge (i : Instr) : exec i (withClkEdge e s) = mapNext (withClkEdge e) (exec i s) := by
  cases i with
  | add | and | slt | addi | lui | ori | beq => rfl
  | lw rt imm rs => exact access_withClkEdge (s := s) e _ ((s.writeReg rt _).advance 0)
  | sw rt imm rs => exact access_withClkEdge (s := s) e _ ((s.writeMem _ (s.readReg rt)).advance 0)

theorem execUnknown_withClkEdge : execUnknown (withClkEdge e s) = mapNext (withClkEdge e) (execUnknown s) := by
  have hpolicy : (withClkEdge e s).params.unknownPolicy = s.params.unknownPolicy := rfl
  simp only [execUnknown, hpolicy]
  split <;> rfl

theorem step_withClkEdge : step (withClkEdge e s) = mapNext (withClkEdge e) (step s) := by
  have hfetch : (withClkEdge e s).fetch = s.fetch := rfl
  simp only [step, hfetch]
  split
  · rfl
  · split
    · exact exec_withClkEdge e _
    · exact execUnknown_withClkEdge e

end ClockEdge

/-- Settles O14: a step commutes with the change of the clock edge. -/
theorem noRuleReadsTheClockEdge : Obligations.NoRuleReadsTheClockEdge := by
  intro e s
  constructor
  · intro t h
    rw [step_withClkEdge, h]
    rfl
  · intro f h
    rw [step_withClkEdge, h]
    rfl

/-! ### The write ports (R118, R127, R129) -/

theorem Signals.readReg_commit (g : Signals) (s : State) (r : RegIdx) : (g.commit s).readReg r =
    if g.control.regWrite = true ∧ g.wa ≠ 0 ∧ r = g.wa then g.wd else s.readReg r := by
  have hmem (q : RegIdx) : (if g.control.memWrite = true then s.writeMem g.aluOut.result g.rtVal else s).readReg q =
      s.readReg q := by split <;> rfl
  rw [Signals.commit, State.readReg_advance]
  cases hwrite : g.control.regWrite with
  | true => simp only [if_true, State.readReg_writeReg, hmem, true_and, and_comm]
  | false => simp only [Bool.false_eq_true, if_false, hmem, false_and]

theorem Signals.readMem_commit (g : Signals) (s : State) (a : Word) : (g.commit s).readMem a =
    if g.control.memWrite = true ∧ a = g.aluOut.result then g.rtVal else s.readMem a := by
  have hreg (u : State) : (if g.control.regWrite = true then u.writeReg g.wa g.wd else u).readMem a = u.readMem a := by
    split <;> rfl
  rw [Signals.commit, State.readMem_advance, hreg]
  cases hwrite : g.control.memWrite with
  | true => simp only [if_true, State.readMem_writeMem, true_and]
  | false => simp only [Bool.false_eq_true, if_false, false_and]

theorem wordCycleWith_eq_next (h : wordCycleWith draw w s = .next t) : t = (signalsWith draw w s).commit s := by
  simp only [wordCycleWith] at h
  split_ifs at h
  cases h
  rfl

/-- Settles O16: the register port of the commit. -/
theorem registerWritePort : Obligations.RegisterWritePort := by
  intro draw w s t h r
  rw [wordCycleWith_eq_next h, Signals.readReg_commit]

/-- Settles O19: the memory port of the commit, whose data is register rt as read at the start of the cycle. -/
theorem dataMemoryWritePort : Obligations.DataMemoryWritePort := by
  intro draw w s t h a
  rw [wordCycleWith_eq_next h, Signals.readMem_commit]
  rfl

theorem not_memWrite_and_regWrite (tag : Tag) :
    ¬((controlRom tag).memWrite = true ∧ (controlRom tag).regWrite = true) := by
  cases tag <;> decide

theorem exists_fetch_of_step (h : step s = .next t) : ∃ w, s.fetch = some w := by
  obtain ⟨w, i, hw, -⟩ | ⟨w, e, hw, -⟩ := step_cases h
  · exact ⟨w, hw⟩
  · exact ⟨w, hw⟩

/-- A register that a step over `w` changed is the one at the register port, and the port was enabled. -/
theorem changed_reg_of_step (hw : s.fetch = some w) (h : step s = .next t) {r : RegIdx}
    (hr : t.readReg r ≠ s.readReg r) :
    (controlRom (classifyWord w)).regWrite = true ∧ r = (signalsWith draw w s).wa := by
  rw [registerWritePort draw w s t ((wordCycleWith_eq_step hw).trans h), signalsWith_control] at hr
  obtain ⟨hwrite, -, hwa⟩ := not_imp_comm.1 (fun hno => if_neg hno) hr
  exact ⟨hwrite, hwa⟩

/-- A data word that a step over `w` changed is the one at the ALU result, and the memory port was enabled. -/
theorem changed_mem_of_step (hw : s.fetch = some w) (h : step s = .next t) {a : Word}
    (ha : t.readMem a ≠ s.readMem a) :
    (controlRom (classifyWord w)).memWrite = true ∧ a = (signalsWith draw w s).aluOut.result := by
  rw [dataMemoryWritePort draw w s t ((wordCycleWith_eq_step hw).trans h), signalsWith_control] at ha
  exact not_imp_comm.1 (fun hno => if_neg hno) ha

/-- Settles O21: each kind of change is at its one port, and no bundle enables both ports. -/
theorem atMostOneWritePerCycle : Obligations.AtMostOneWritePerCycle := by
  refine ⟨fun w => not_memWrite_and_regWrite _, fun s t h => ?_⟩
  obtain ⟨w, hw⟩ := exists_fetch_of_step h
  refine ⟨?_, step_sameProgram h, fun r r' hr hr' => ?_, fun a a' ha ha' => ?_⟩
  · by_contra hboth
    simp only [SameRegs, SameMem, not_or, not_forall] at hboth
    obtain ⟨⟨r, hr⟩, a, ha⟩ := hboth
    exact not_memWrite_and_regWrite _
      ⟨(changed_mem_of_step (draw := 0) hw h ha).1, (changed_reg_of_step (draw := 0) hw h hr).1⟩
  · exact (changed_reg_of_step (draw := 0) hw h hr).2.trans (changed_reg_of_step hw h hr').2.symm
  · exact (changed_mem_of_step (draw := 0) hw h ha).2.trans (changed_mem_of_step hw h ha').2.symm

/-! ### The next pc (R124, R130) -/

theorem branchOffset_equalTaken (a b simm : Word) :
    branchOffset (equalTaken a b) simm = if a = b then simm else 0 := by
  simp only [branchOffset, equalTaken, beq_iff_eq]

/-- Settles O20: BEQ alone hands the PC unit an offset other than 0. -/
theorem nextPcOfEveryStep : Obligations.NextPcOfEveryStep := by
  intro s t h
  obtain ⟨w, i, -, -, hcurrent, hexec⟩ | ⟨w, e, -, -, hcurrent, -, rfl⟩ := step_cases h
  · obtain ⟨d, v, hd, -, rfl⟩ | ⟨rt, imm, rs, rfl, rfl⟩ | ⟨rs, rt, imm, rfl, rfl⟩ := exec_cases hexec
    · rw [hcurrent]
      cases i with
      | sw | beq => cases hd
      | add | and | slt | addi | lui | ori | lw => rfl
    · rw [hcurrent]; rfl
    · rw [hcurrent, State.advance_pc, branchOffset_equalTaken, sext32]
  · rw [hcurrent]; rfl

/-! ### The trace (R128, R133) -/

/-- The destination of a listed word is where its enabled register port points. -/
theorem wa_of_destination (hd : decode w = .ok i) {d : RegIdx} (h : destination i = some d) :
    (signalsWith draw w s).control.regWrite = true ∧ (signalsWith draw w s).wa = d := by
  rw [destination_of_decode hd, tag_of_decode hd] at h
  split at h
  · next hwrite => exact ⟨hwrite, Option.some.inj h⟩
  · cases h

/-- LW and SW hand the data memory the ALU result as its address (R126, R190). -/
theorem aluResult_of_dataAddress (hd : decode w = .ok i) {a : Word} (h : dataAddress i s = some a) :
    (signalsWith draw w s).aluOut.result = a := by
  unfold decode at hd
  split at hd <;> cases hd
  case h_7 htag | h_8 htag =>
    rw [signalsWith, ← classifyWord, htag]
    exact Option.some.inj h
  case h_1 | h_2 | h_3 | h_4 | h_5 | h_6 | h_9 => cases h

/-- The trace records the signals of a cycle under some value of the free ALU result. -/
theorem trace_of_fetch (h : s.fetch = some w) : ∃ draw, s.trace = some
    { opcode := opcodeField w, control := controlRom (classifyWord w)
      aluResult := (signalsWith draw w s).aluOut.result, pc := s.pc } :=
  ⟨_, by rw [State.trace, h]; rfl⟩

/-- Settles O43: the step commits the traced signals, so the register port shows what MemToReg selects. -/
theorem traceShowsTheCycle : Obligations.TraceShowsTheCycle := by
  intro s t w hw h
  obtain ⟨draw, htrace⟩ := trace_of_fetch hw
  refine ⟨_, htrace, rfl, rfl, rfl, fun i hd => ⟨fun d hdest h0 => ?_, fun a => aluResult_of_dataAddress hd⟩⟩
  obtain ⟨hwrite, hwa⟩ := wa_of_destination (draw := draw) (s := s) hd hdest
  rw [registerWritePort draw w s t ((wordCycleWith_eq_step hw).trans h), hwa, if_pos ⟨hwrite, h0, rfl⟩]
  rfl

end Sys2Proof.Machine

/-! ## ADD, AND and SLT: rows, results and frames (41_rtype_alu.md)

A word under a row's mask has the row's tag, and an instruction that writes a register and advances the pc by 1 leaves all
else as it was. Neither speaks of one instruction; each obligation adds its own result to them. -/

namespace Sys2Proof

theorem classifyWord_of_row {w : Word} {row : OpcodeRow} (hrow : row ∈ opcodeTable) (h : w &&& row.mask = row.pattern) :
    classifyWord w = row.tag :=
  (covers_iff_classifyWord w row hrow).1 (beq_iff_eq.2 h)

end Sys2Proof

namespace Sys2Proof.Safety

open Sys2Proof.Machine

/-- The one frame of the forms that write a register: the write and the advance that `exec` answers are a retirement. -/
theorem retiresWriting_writeReg_advance (s : State) (d : RegIdx) (v : Word) :
    RetiresWriting s ((s.writeReg d v).advance 0) d v := by
  refine ⟨fun r => ?_, ?_, fun a => ?_, rfl, rfl⟩
  · rw [State.readReg_advance, State.readReg_writeReg]
  · exact BitVec.add_zero (s.pc + 1)
  · rw [State.readMem_advance, State.readMem_writeReg]

/-- Settles O23: the word sum of two registers is their sum as naturals, narrowed to 32 bits. -/
theorem addWrapsInto32Bits : Obligations.AddWrapsInto32Bits := by
  refine ⟨fun w hw => ?_, rfl, fun rd rs rt s => ?_⟩
  · have htag := classifyWord_of_row (row := ⟨.add, 0xFC00003F, 0x00000020⟩) (by decide) hw
    simp only [decode, htag]
  · have hsum : BitVec.ofNat 32 ((s.readReg rs).toNat + (s.readReg rt).toNat) = s.readReg rs + s.readReg rt := by
      simp only [BitVec.ofNat_add, BitVec.ofNat_toNat, BitVec.setWidth_eq]
    rw [hsum]
    exact ⟨_, rfl, retiresWriting_writeReg_advance s rd _⟩

/-- Settles O24: the value that AND writes is already the conjunction of the two registers. -/
theorem andIsBitwise : Obligations.AndIsBitwise := by
  refine ⟨fun w hw => ?_, rfl, fun rd rs rt s => ?_⟩
  · have htag := classifyWord_of_row (row := ⟨.and, 0xFC00003F, 0x00000024⟩) (by decide) hw
    simp only [decode, htag]
  · exact ⟨_, rfl, retiresWriting_writeReg_advance s rd _⟩

/-- Settles O25: `sltWord` is the signed comparison of the two registers. -/
theorem sltComparesSigned : Obligations.SltComparesSigned := by
  refine ⟨fun w hw => ?_, rfl, fun rd rs rt s => ?_⟩
  · have htag := classifyWord_of_row (row := ⟨.slt, 0xFC00003F, 0x0000002A⟩) (by decide) hw
    simp only [decode, htag]
  · exact ⟨_, rfl, retiresWriting_writeReg_advance s rd (sltWord (s.readReg rs) (s.readReg rt))⟩

end Sys2Proof.Safety

/-! ## ADDI, LUI and ORI: rows, results and frames (42_immediate_alu.md)

The frame is the one of the register forms; each obligation adds the arithmetic meaning of its extended immediate. -/

namespace Sys2Proof.Machine

/-- LUI's value as a number: whatever the extension, the shift leaves the immediate times 2^16 (R84). -/
theorem sext32_shift_eq_ofNat (imm : Imm) : sext32 imm <<< 16 = BitVec.ofNat 32 (imm.toNat * 2 ^ 16) := by
  apply BitVec.eq_of_toNat_eq
  rw [sext32_shift, BitVec.toNat_shiftLeft, BitVec.toNat_setWidth_of_le (by decide), BitVec.toNat_ofNat,
    Nat.shiftLeft_eq]

theorem zext32_eq_ofNat (imm : Imm) : zext32 imm = BitVec.ofNat 32 imm.toNat :=
  (BitVec.ofNat_toNat 32 imm).symm

end Sys2Proof.Machine

namespace Sys2Proof.Safety

open Sys2Proof.Machine

/-- Settles O26: adding the sign-extended immediate is the integer sum, narrowed to 32 bits. -/
theorem addiAddsTheSignExtendedImmediate : Obligations.AddiAddsTheSignExtendedImmediate := by
  refine ⟨fun w hw => ?_, rfl, fun rt rs imm s => ?_⟩
  · have htag := classifyWord_of_row (row := ⟨.addi, 0xFC000000, 0x20000000⟩) (by decide) hw
    simp only [decode, htag]
  · rw [← add_sext32]
    exact ⟨_, rfl, retiresWriting_writeReg_advance s rt _⟩

/-- Settles O27: LUI's shift discards the sign extension, so the immediate stands alone in the high half. -/
theorem luiPlacesTheImmediateHigh : Obligations.LuiPlacesTheImmediateHigh := by
  refine ⟨fun w hw => ?_, rfl, fun rt imm s => ?_⟩
  · have htag := classifyWord_of_row (row := ⟨.lui, 0xFC000000, 0x3C000000⟩) (by decide) hw
    simp only [decode, htag]
  · rw [← sext32_shift_eq_ofNat]
    exact ⟨_, rfl, retiresWriting_writeReg_advance s rt _⟩

/-- Settles O28: the zero-extended immediate is the immediate's unsigned value as a word. -/
theorem oriZeroExtendsTheImmediate : Obligations.OriZeroExtendsTheImmediate := by
  refine ⟨fun w hw => ?_, rfl, fun rt rs imm s => ?_⟩
  · have htag := classifyWord_of_row (row := ⟨.ori, 0xFC000000, 0x34000000⟩) (by decide) hw
    simp only [decode, htag]
  · rw [← zext32_eq_ofNat]
    exact ⟨_, rfl, retiresWriting_writeReg_advance s rt _⟩

end Sys2Proof.Safety

/-! ## LW and SW: the address, rows, results and frames (43_load_store.md)

The load's frame is the one of the register forms; the store has one of its own. The address is one lemma for both, and
inside the capacity each instruction answers its access's next state. -/

namespace Sys2Proof.Machine

variable {s : State} {rt rs : RegIdx} {imm : Imm}

theorem exec_lw_of_inCapacity (h : s.inCapacity (s.effectiveAddress rs imm) = true) :
    exec (.lw rt imm rs) s =
      .next ((s.writeReg rt (s.readMem (s.effectiveAddress rs imm))).advance 0) :=
  State.access_eq_next.2 ⟨h, rfl⟩

theorem exec_sw_of_inCapacity (h : s.inCapacity (s.effectiveAddress rs imm) = true) :
    exec (.sw rt imm rs) s =
      .next ((s.writeMem (s.effectiveAddress rs imm) (s.readReg rt)).advance 0) :=
  State.access_eq_next.2 ⟨h, rfl⟩

theorem effectiveAddress_eq_ofInt (s : State) (rs : RegIdx) (imm : Imm) :
    s.effectiveAddress rs imm = BitVec.ofInt 32 ((s.readReg rs).toInt + imm.toInt) :=
  add_sext32 (s.readReg rs) imm

end Sys2Proof.Machine

namespace Sys2Proof.Safety

open Sys2Proof.Machine

/-- The instruction retires having stored `v` at the word address `a` and advanced the pc by 1, and all else is as before:
for a store, what `RetiresWriting` is for a register form. -/
def RetiresStoring (s t : State) (a v : Word) : Prop :=
  (∀ b, t.readMem b = if b = a then v else s.readMem b) ∧ t.pc = s.pc + 1 ∧ SameRegs s t ∧ SameProgram s t

theorem retiresStoring_writeMem_advance (s : State) (a v : Word) :
    RetiresStoring s ((s.writeMem a v).advance 0) a v := by
  refine ⟨fun b => ?_, ?_, fun r => ?_, rfl, rfl⟩
  · rw [State.readMem_advance, State.readMem_writeMem]
  · exact BitVec.add_zero (s.pc + 1)
  · rw [State.readReg_advance, State.readReg_writeMem]

/-- Settles O29: modulo 2^32 the base is one word, whether it is read as signed or as unsigned. -/
theorem effectiveAddressIsBasePlusOffset : Obligations.EffectiveAddressIsBasePlusOffset := by
  intro s rs imm
  rw [effectiveAddress_eq_ofInt, BitVec.ofInt_add, BitVec.ofInt_add, BitVec.ofInt_toInt, BitVec.ofInt_natCast,
    BitVec.ofNat_toNat, BitVec.setWidth_eq]

/-- Settles O30: an access inside the capacity answers the load, which retires writing the word it read. -/
theorem lwLoadsTheWord : Obligations.LwLoadsTheWord := by
  refine ⟨fun w hw => ?_, rfl, fun s a hnone => inCapacity_of_unbounded hnone a, fun rt imm rs s hcap => ?_⟩
  · have htag := classifyWord_of_row (row := ⟨.lw, 0xFC000000, 0x8C000000⟩) (by decide) hw
    simp only [decode, htag]
  · exact ⟨_, exec_lw_of_inCapacity hcap, effectiveAddress_eq_ofInt s rs imm,
      retiresWriting_writeReg_advance s rt _⟩

/-- Settles O31: an access inside the capacity answers the store, which retires leaving the old rt at the address. -/
theorem swStoresTheWord : Obligations.SwStoresTheWord := by
  refine ⟨fun w hw => ?_, rfl, fun s a hnone => inCapacity_of_unbounded hnone a, fun rt imm rs s hcap => ?_⟩
  · have htag := classifyWord_of_row (row := ⟨.sw, 0xFC000000, 0xAC000000⟩) (by decide) hw
    simp only [decode, htag]
  · exact ⟨_, exec_sw_of_inCapacity hcap, effectiveAddress_eq_ofInt s rs imm,
      retiresStoring_writeMem_advance s _ (s.readReg rt)⟩

end Sys2Proof.Safety

/-! ## BEQ: row, next pc and frame; parking; and no halt (44_branch.md)

BEQ is an advance of the pc by its offset. With offset -1 and equal registers the advance is the identity, so the core stays
where it is; and where no stop is configured, each step retires into a state in which none is, so the core runs on. -/

namespace Sys2Proof.Machine

/-- What BEQ does: it advances the pc, by the extended immediate on top where the registers are equal (R124, R210). -/
theorem exec_beq (rs rt : RegIdx) (imm : Imm) (s : State) : exec (.beq rs rt imm) s =
    .next (s.advance (if s.readReg rs = s.readReg rt then sext32 imm else 0)) := by
  rw [← branchOffset_equalTaken]
  rfl

/-- The PC unit's word sum is the integer sum, narrowed to 32 bits (R130). -/
theorem branch_pc_eq_ofInt (pc : Word) (taken : Prop) [Decidable taken] (imm : Imm) :
    pc + 1 + (if taken then sext32 imm else 0) =
      BitVec.ofInt 32 (pc.toNat + 1 + if taken then imm.toInt else 0) := by
  have hoffset : (if taken then sext32 imm else 0) = BitVec.ofInt 32 (if taken then imm.toInt else 0) := by
    split <;> rfl
  rw [hoffset, BitVec.ofInt_add, BitVec.ofInt_add, BitVec.ofInt_natCast, BitVec.ofNat_toNat, BitVec.setWidth_eq]
  rfl

/-- The offset -1 takes back the pc's own increment (R211). -/
theorem State.advance_sext32_neg_one (s : State) : s.advance (sext32 0xFFFF) = s := by
  have hpc : s.pc + 1 + sext32 0xFFFF = s.pc := by
    rw [BitVec.add_assoc, show (1 : Word) + sext32 0xFFFF = 0 by decide]
    exact BitVec.add_zero s.pc
  rw [State.advance, hpc]

end Sys2Proof.Machine

namespace Sys2Proof.Safety

open Sys2Proof.Machine

variable {s t : State}

/-- Settles O32: the row of BEQ, and an advance of the pc, which no register, data word or program sees. -/
theorem beqAddsTheUnscaledOffset : Obligations.BeqAddsTheUnscaledOffset := by
  refine ⟨fun w hw => ?_, rfl, fun rs rt imm s => ?_⟩
  · have htag := classifyWord_of_row (row := ⟨.beq, 0xFC000000, 0x10000000⟩) (by decide) hw
    simp only [decode, htag]
  · exact ⟨_, exec_beq rs rt imm s, branch_pc_eq_ofInt s.pc _ imm, fun r => State.readReg_advance s r _,
      fun a => State.readMem_advance s a _, rfl, rfl⟩

/-! ### Parking (R93, R211) -/

/-- A state that steps to itself stays for any number of steps. -/
theorem runsTo_self_of_step (h : step s = .next s) (k : Nat) : runsTo k s s := by
  induction k with
  | zero => exact runsTo_zero.2 rfl
  | succ k ih => exact runsTo_succ.2 ⟨s, h, ih⟩

/-- Settles O34: the taken branch by -1 steps the state to itself. -/
theorem selfLoopParksTheCore : Obligations.SelfLoopParksTheCore := by
  intro s rs rt hcurrent heq
  refine runsTo_self_of_step ?_
  rw [step_of_current hcurrent, exec_beq, if_pos heq, State.advance_sext32_neg_one]

/-! ### No halt (R211, R253) -/

theorem Unstoppable.exists_fetch (h : Unstoppable s) : ∃ w, s.fetch = some w := by
  obtain ⟨-, ⟨w, hw⟩, -⟩ := h
  refine Option.ne_none_iff_exists'.1 fun hnone => ?_
  have hstuck := (State.fetch_eq_none.1 hnone).2
  rw [hw] at hstuck
  cases hstuck

theorem Unstoppable.of_sameProgram (h : Unstoppable s) (hprogram : SameProgram s t) : Unstoppable t := by
  rwa [Unstoppable, hprogram.2]

/-- Progress: where no stop is configured, the fetched word retires. -/
theorem Unstoppable.exists_step (h : Unstoppable s) : ∃ t, step s = .next t := by
  obtain ⟨w, hw⟩ := h.exists_fetch
  obtain ⟨hnop, -, hcap⟩ := h
  exact everyFetchedWordRetires s w hw hnop hcap

theorem Unstoppable.exists_runsTo (h : Unstoppable s) (k : Nat) : ∃ t, runsTo k s t := by
  induction k generalizing s with
  | zero => exact ⟨s, runsTo_zero.2 rfl⟩
  | succ k ih =>
    obtain ⟨u, hstep⟩ := h.exists_step
    obtain ⟨t, hrun⟩ := ih (h.of_sameProgram (step_sameProgram hstep))
    exact ⟨t, runsTo_succ.2 ⟨u, hstep, hrun⟩⟩

/-- Settles O11: a run of any length exists, and it keeps the configuration with the program. -/
theorem coreNeverHalts : Obligations.CoreNeverHalts := by
  intro s h k
  obtain ⟨t, hrun⟩ := h.exists_runsTo k
  exact ⟨t, hrun, h.of_sameProgram (runsTo_sameProgram hrun)⟩

end Sys2Proof.Safety

/-! ## UNKNOWN: its words, its step and its frame (45_unlisted.md)

UNKNOWN is the tag no listed pair takes, so its words are those outside the fields of the nine listed tags. Its step under
`nop` is an advance of the pc by no offset, which no register, data word or program sees. -/

namespace Sys2Proof

variable {w : Word}

/-- UNKNOWN is the tag that is none of the nine; they stand in the order of their opcodes (R230). -/
theorem Tag.eq_unknown_iff (t : Tag) : t = .unknown ↔ (t ≠ .add ∧ t ≠ .and ∧ t ≠ .slt) ∧
    t ≠ .beq ∧ t ≠ .addi ∧ t ≠ .ori ∧ t ≠ .lui ∧ t ≠ .lw ∧ t ≠ .sw := by
  cases t <;> decide

/-- The words of UNKNOWN in fields: under opcode 0 the functs decide, under any other the opcodes (R90, R230). -/
theorem classifyWord_eq_unknown : classifyWord w = .unknown ↔
    opcodeField w ∉ [0x00, 0x04, 0x08, 0x0d, 0x0f, 0x23, 0x2b] ∨
      opcodeField w = 0x00 ∧ functField w ∉ [0x20, 0x24, 0x2a] := by
  simp only [Tag.eq_unknown_iff, ne_eq, classifyWord_eq_add, classifyWord_eq_and, classifyWord_eq_slt,
    classifyWord_eq_beq, classifyWord_eq_addi, classifyWord_eq_ori, classifyWord_eq_lui, classifyWord_eq_lw,
    classifyWord_eq_sw, List.mem_cons, List.not_mem_nil, or_false, not_or]
  by_cases hop : opcodeField w = 0#6
  · simp [hop]
  · simp [hop]

end Sys2Proof

namespace Sys2Proof.Machine

variable {w : Word} {s : State}

theorem step_of_unknown (hw : s.fetch = some w) (h : classifyWord w = .unknown) : step s = execUnknown s := by
  obtain ⟨e, hd⟩ := decode_eq_error.2 h
  simp only [step, hw, hd]

end Sys2Proof.Machine

namespace Sys2Proof.Safety

open Sys2Proof.Machine

/-- Settles O7: UNKNOWN's words in fields, its ROM row, and the advance of the pc by no offset. -/
theorem unlistedWordOnlyAdvancesThePc : Obligations.UnlistedWordOnlyAdvancesThePc := by
  refine ⟨fun w => classifyWord_eq_unknown, rfl, fun s w hw hunknown hnop => ?_⟩
  have hstep : step s = .next (s.advance 0) :=
    (step_of_unknown hw hunknown).trans (execUnknown_eq_next.2 ⟨hnop, rfl⟩)
  exact ⟨_, hstep, BitVec.add_zero (s.pc + 1), fun r => State.readReg_advance s r 0,
    fun a => State.readMem_advance s a 0, rfl, rfl⟩

end Sys2Proof.Safety

/-! ## The stops: what each part of the step can stop on, and R254's three (60_exceptions.md)

Every cycle is one of three: nothing is fetched, a listed word runs, or UNKNOWN does. Each has its own stop and none refuses,
so the stops of a step are those of the cycle it is. -/

namespace Sys2Proof.Machine

variable {s : State}

theorem execUnknown_eq_fault {f : Fault} :
    execUnknown s = .fault f ↔ s.params.unknownPolicy = .fault ∧ f = .unknownWord s.pc := by
  unfold execUnknown
  cases s.params.unknownPolicy <;> simp [eq_comm]

theorem execUnknown_ne_refused {r : Refusal} : execUnknown s ≠ .refused r := by
  unfold execUnknown
  cases s.params.unknownPolicy <;> simp

theorem exec_ne_refused (i : Instr) {r : Refusal} : exec i s ≠ .refused r := by
  cases i with
  | add | and | slt | addi | lui | ori | beq => exact nofun
  | lw | sw => exact State.access_ne_refused

theorem step_of_fetch_eq_none (h : s.fetch = none) : step s = .fault (.unloadedFetch s.pc) := by
  simp only [step, h]

end Sys2Proof.Machine

namespace Sys2Proof.Safety

open Sys2Proof.Machine

variable {s : State}

/-- There is no current instruction if and only if no listed word is fetched. -/
theorem current_eq_none : current s = none ↔ ∀ w, s.fetch = some w → classifyWord w = .unknown := by
  cases hw : s.fetch with
  | none => simp [current, hw]
  | some w => cases hd : decode w <;> simp [current, hw, hd, ← decode_eq_error]

/-- The three cycles: a fetch that is stuck, an instruction, or an UNKNOWN word. -/
theorem fetch_cases (s : State) : s.fetch = none ∨ (∃ i, current s = some i) ∨
    ∃ w, s.fetch = some w ∧ classifyWord w = .unknown := by
  cases hw : s.fetch with
  | none => exact .inl rfl
  | some w =>
    cases hi : current s with
    | some i => exact .inr (.inl ⟨i, rfl⟩)
    | none => exact .inr (.inr ⟨w, rfl, current_eq_none.1 hi w hw⟩)

theorem step_ne_refused (s : State) (r : Refusal) : step s ≠ .refused r := by
  obtain hnone | ⟨i, hi⟩ | ⟨w, hw, hunknown⟩ := fetch_cases s
  · rw [step_of_fetch_eq_none hnone]; exact nofun
  · rw [step_of_current hi]; exact exec_ne_refused i
  · rw [step_of_unknown hw hunknown]; exact execUnknown_ne_refused

/-- The stops of a step, each with the cycle it belongs to. -/
theorem step_eq_fault {f : Fault} : step s = .fault f ↔ (s.fetch = none ∧ f = .unloadedFetch s.pc) ∨
    (∃ i, current s = some i ∧ exec i s = .fault f) ∨
    ∃ w, s.fetch = some w ∧ classifyWord w = .unknown ∧ execUnknown s = .fault f := by
  constructor
  · intro h
    obtain hnone | ⟨i, hi⟩ | ⟨w, hw, hunknown⟩ := fetch_cases s
    · rw [step_of_fetch_eq_none hnone] at h
      cases h
      exact .inl ⟨hnone, rfl⟩
    · exact .inr (.inl ⟨i, hi, step_of_current hi ▸ h⟩)
    · exact .inr (.inr ⟨w, hw, hunknown, step_of_unknown hw hunknown ▸ h⟩)
  · rintro (⟨hnone, rfl⟩ | ⟨i, hi, h⟩ | ⟨w, hw, hunknown, h⟩)
    · exact step_of_fetch_eq_none hnone
    · exact (step_of_current hi).trans h
    · exact (step_of_unknown hw hunknown).trans h

/-- Settles O8: no cycle refuses, and the stop of each is spelled out by the rule of its fetch, access or policy. -/
theorem stopsAreExactlyTheThreeOfTheSpec : Obligations.StopsAreExactlyTheThreeOfTheSpec := by
  refine fun s => ⟨step_ne_refused s, fun f => ?_⟩
  simp only [step_eq_fault, State.fetch_eq_none, and_assoc, onlyAccessesBeyondCapacityAreStuck _ s f,
    exists_and_left, execUnknown_eq_fault]

end Sys2Proof.Safety

/-! ## Launch and reset: what the state holds before the first step, and that it meets the invariant
(70_reset_and_hazards.md)

One rule for a register, and one each for a lookup in a loaded program and for its canonical form; reset is the launch
with nothing loaded. -/

namespace Sys2Proof.Machine

/-! ### The loaded program (R30, R134) -/

theorem lookup_loadProgram (program : List Word) (k : Nat) : Cells.lookup (loadProgram program) k = program[k]? :=
  lookup_cellsFrom program 0 k

/-- Every filled index is below the program's length, so it has 32 bits. -/
theorem InstrStore.wf_loadProgram {program : List Word} (h : wellFormedProgram program = true) :
    InstrStore.wf (loadProgram program) := by
  have hlength : program.length ≤ 2 ^ 32 := of_decide_eq_true h
  refine ⟨pairwise_cellsFrom program 0, fun c hc => ?_⟩
  obtain ⟨-, hindex⟩ := index_of_mem_cellsFrom hc
  omega

/-! ### The launch state (R25, R28, R29, R30, R270) -/

section Launch

variable (program : List Word) (rfInit : Vector Word 31) (dmemInit : Cells) (params : Params)

theorem State.readReg_launch {r : Nat} (h : r < 31) :
    (State.launch program rfInit dmemInit params).readReg (BitVec.ofNat 5 (r + 1)) = rfInit[r] := by
  have hlane : (BitVec.ofNat 5 (r + 1)).toNat = r + 1 := by
    rw [BitVec.toNat_ofNat, Nat.mod_eq_of_lt (by omega)]
  have hne : BitVec.ofNat 5 (r + 1) ≠ 0 := fun h0 => by
    simpa [hlane] using congrArg BitVec.toNat h0
  rw [State.readReg_of_ne _ hne]
  simp [State.launch, hlane]

theorem State.lane_zero_launch : (State.launch program rfInit dmemInit params).regs[0] = 0 := by
  simp [State.launch]

end Launch

/-- Settles O38: the register rule and the loader's rule; the rest is what the launch state is built of. -/
theorem launchStateIsAsTheSpecLists : Obligations.LaunchStateIsAsTheSpecLists := by
  intro program rfInit dmemInit params
  exact ⟨rfl, State.readReg_zero _, fun _ => State.readReg_launch program rfInit dmemInit params, fun _ => rfl,
    lookup_loadProgram program, rfl⟩

/-! ### The invariant at launch (R22, R30, R270) -/

/-- Settles O41: the loader lists the program in canonical form, and the launch fills lane 0 with 0. -/
theorem launchMeetsTheInvariant : Obligations.LaunchMeetsTheInvariant :=
  fun program rfInit dmemInit params hprogram hdmem =>
    ⟨hdmem, InstrStore.wf_loadProgram hprogram, State.lane_zero_launch program rfInit dmemInit params⟩

/-! ### Reset (R270, D1, D12) -/

/-- A register file of zeros is what a zero `RF_INIT` gives. -/
theorem State.reset_eq_launch : State.reset = State.launch [] (Vector.replicate 31 0) [] Params.spec := by
  have hregs : Vector.replicate 32 (0 : Word) =
      (State.launch [] (Vector.replicate 31 0) [] Params.spec).regs := by
    ext1 lane hlane
    simp [State.launch]
  rw [State.reset, hregs]
  rfl

theorem State.readReg_reset (r : RegIdx) : State.reset.readReg r = 0 := by
  by_cases hr : r = 0
  · rw [hr]
    exact State.readReg_zero _
  · rw [State.readReg_of_ne _ hr]
    exact Vector.getElem_replicate _

/-- Settles O39: a zero register file and empty memories read 0 everywhere, and the policies are those of `Params.spec`. -/
theorem resetIsALaunchState : Obligations.ResetIsALaunchState :=
  ⟨State.reset_eq_launch, rfl, State.readReg_reset, Memory.read_nil, rfl, rfl⟩

/-- Settles O40: reset is a launch of the empty program with an empty data memory. -/
theorem resetMeetsTheInvariant : Obligations.ResetMeetsTheInvariant := by
  rw [Obligations.ResetMeetsTheInvariant, State.reset_eq_launch]
  exact launchMeetsTheInvariant [] _ [] _ (by decide) Memory.wf_reset

end Sys2Proof.Machine
